-- ==== Sys2Proof/Word.lean ====
section
/-!
DEFINITION. The words, bytes and fixed-size sequences of the core (00_scope R11, R13, R15), and nothing computed from them:
every operation stands under Machine/.
-/

namespace Sys2Proof

/-- A 32-bit unsigned word, bits 31..0 (R11 `WORD`, R13). -/
abbrev Word := BitVec 32

/-- One byte of a byte sequence (R15). -/
abbrev Byte := BitVec 8

/-- A 4-bit field of a word (R13, R18). -/
abbrev Nibble := BitVec 4

/-- `BLOCK_BYTES` = 8 bytes, first byte at index 0 (R11, R15). -/
abbrev Block := Vector Byte 8

/-- `NRK` = 32 round keys of 32 bits, in schedule order (R11, R23). -/
abbrev Schedule := Vector Word 32

/-- The S-box ROM's shape: 8 rows of 16 entries of 4 bits (R11, R21). Row i serves nibble i. -/
abbrev SBox := Vector (Vector Nibble 16) 8

end Sys2Proof
end

