-- ==== Sys2Proof/Config.lean ====
section
/-!
DEFINITION. The three parameters the source does not settle (00_scope R12), their default values, and the one free value.
-/

namespace Sys2Proof

/-- The order of steps 2 and 3 of G (R12, R84; 90_conflicts C1). -/
inductive GOrder where
  | rotThenSub
  | subThenRot
deriving DecidableEq, Repr

/-- The parameters of R12. They stand in the machine's state (log 2), so that a statement about every state is one about
every parameter value. `maxStream = none` is "unbounded". -/
structure Params where
  sbox : SBox
  gOrder : GOrder
  maxStream : Option Nat
deriving DecidableEq, Repr

/-- The default `SBOX_TABLE`, as 10_state R21 prints it. PRESUMED (log 3): R21 itself says that the numbers come from general
knowledge and not from the source. -/
def Config.sboxTable : SBox := #v[
  #v[0xC, 0x4, 0x6, 0x2, 0xA, 0x5, 0xB, 0x9, 0xE, 0x8, 0xD, 0x7, 0x0, 0x3, 0xF, 0x1],
  #v[0x6, 0x8, 0x2, 0x3, 0x9, 0xA, 0x5, 0xC, 0x1, 0xE, 0x4, 0x7, 0xB, 0xD, 0x0, 0xF],
  #v[0xB, 0x3, 0x5, 0x8, 0x2, 0xF, 0xA, 0xD, 0xE, 0x1, 0x7, 0x4, 0xC, 0x9, 0x6, 0x0],
  #v[0xC, 0x8, 0x2, 0x1, 0xD, 0x4, 0xF, 0x6, 0x7, 0x0, 0xA, 0x5, 0x3, 0xE, 0x9, 0xB],
  #v[0x7, 0xF, 0x5, 0xA, 0x8, 0x1, 0x6, 0xD, 0x0, 0x9, 0x3, 0xE, 0xB, 0x4, 0x2, 0xC],
  #v[0x5, 0xD, 0xF, 0x6, 0x9, 0x2, 0xC, 0xA, 0xB, 0x7, 0x8, 0x1, 0x4, 0x3, 0xE, 0x0],
  #v[0x8, 0xE, 0x2, 0x5, 0x6, 0x9, 0x1, 0xC, 0xF, 0x4, 0xB, 0x0, 0xD, 0xA, 0x3, 0x7],
  #v[0x1, 0x7, 0xE, 0xD, 0x0, 0x5, 0x8, 0x3, 0x4, 0xF, 0xA, 0x6, 0x9, 0xC, 0xB, 0x2]]

/-- The defaults of R12: the table above, the source's step order (C1), no stream bound. -/
def Config.params : Params :=
  { sbox := Config.sboxTable, gOrder := .rotThenSub, maxStream := none }

/-- FREE VALUE (log 11): how many bytes of the failed block the sink keeps after a failed write, "of length 0 to 8 that no one
specifies" (R106, I10). Applied to the counter `freeCtr`; nothing can evaluate it. -/
opaque Config.failedWritePrefix : Nat → Fin 9

end Sys2Proof
end

