-- ==== Sys2Proof/Syntax.lean ====
section
/-!
DEFINITION. What the host hands the core: the six commands (one constructor per row of spec/opcode_table.json), the fields of a
command word, the operand record and the command (30_encoding R55-R61), and the host's moves (00_scope R10).
-/

namespace Sys2Proof

/-- The two-valued mode `M`, "a closed two-variant tagged enumeration" (R60, R18). -/
inductive Mode where
  | encrypt
  | decrypt
deriving DecidableEq, Repr

/-- The six commands. None has a register or immediate field: all data travels in the operand record (R58, R61, R64). -/
inductive Instr where
  | keyx
  | gf
  | encb
  | decb
  | pse
  | psd
deriving DecidableEq, Repr

/-- The mnemonic of the opcode table (R61). -/
def Instr.mnemonic : Instr → String
  | .keyx => "KEYX"
  | .gf => "GF"
  | .encb => "ENCB"
  | .decb => "DECB"
  | .pse => "PSE"
  | .psd => "PSD"

/-- A command word's fields: reserved 31:8, `FN` 7:1, `M` 0 (R58). -/
structure CmdFields where
  reserved : BitVec 24
  fn : BitVec 7
  m : BitVec 1
deriving DecidableEq, Repr

/-- The failure value a host gives when it fails a request: opaque to the core, passed through unchanged (R118, I11).
DESIGN CHOICE (log 10): a natural number stands for it. -/
abbrev IoInfo := Nat

/-- How the host answers one source or sink request (R106): it serves it, fails it with a value of its choice, or never
answers it (R141, R142). -/
inductive Answer where
  | ok
  | fail (info : IoInfo)
  | silent
deriving DecidableEq, Repr

/-- The host's source: the bytes it still holds, front first, and its answers to the requests to come, oldest first. A request
past the end of the list is served (R42, R106). -/
structure Source where
  bytes : List Byte
  answers : List Answer
deriving DecidableEq, Repr

/-- The operand record `OPS` (R56). `snk` is the sink as presented: empty (R43, R106), known only by how it will answer. -/
structure OperandRecord where
  a : Word
  k : Word
  key : List Byte
  blk : List Byte
  src : Source
  snk : List Answer
deriving DecidableEq, Repr

/-- An operand record with nothing in it. -/
def OperandRecord.empty : OperandRecord :=
  { a := 0, k := 0, key := [], blk := [], src := { bytes := [], answers := [] }, snk := [] }

/-- A command: the pair (`CMD`, `OPS`) (R55). -/
structure Command where
  cmd : Word
  ops : OperandRecord
deriving DecidableEq, Repr

/-- The host's read-only ports (R29, R128). -/
inductive Port where
  | status
  | res
  | blkout
  | eng
deriving DecidableEq, Repr

/-- The host's moves (R10). DESIGN CHOICE (log 1, log 8): the host issues a command and lets it run undisturbed to its response
(`issue`, one step), or starts one whose micro-steps are taken one a step (`start`), so that a move can come between two of
them; it lets the core take a micro-step (`tick`), asserts reset (R130), reads a port, or, once a command has ended, keeps only the
first n bytes of its sink (`cutSink`: it may "keep, discard or truncate `SNK`", R106; discard is n = 0, keep is no move; log 29). -/
inductive HostMove where
  | issue (c : Command)
  | start (c : Command)
  | tick
  | reset
  | read (p : Port)
  | cutSink (n : Nat)
deriving DecidableEq, Repr

end Sys2Proof
end

