-- ==== Sys2Proof/WellFormed.lean ====
section
/-!
DEFINITION. The checks of the spec on data as it is written: a legal set of command-word fields (30_encoding R59-R63), an S-box
table that is eight permutations (40_sbox R74), parameters that hold such a table, and a ROM index in range (20_memory R39).
-/

namespace Sys2Proof

/-- Reserved bits zero; `FN` 3 and 4 with either `M`; `FN` 1 and 2 with `M` = 0 only; nothing else (R59, R60, R63). -/
def CmdFields.legal (f : CmdFields) : Bool :=
  f.reserved = 0 && (f.fn = 3 || f.fn = 4 || ((f.fn = 1 || f.fn = 2) && f.m = 0))

/-- `FN` of each command (R59). -/
def Instr.fn : Instr → BitVec 7
  | .keyx => 1
  | .gf => 2
  | .encb => 3
  | .decb => 3
  | .pse => 4
  | .psd => 4

/-- `M` of each command: Encrypt 0, Decrypt 1; 0 where it selects nothing (R58, R60, R61). -/
def Instr.m : Instr → BitVec 1
  | .keyx => 0
  | .gf => 0
  | .encb => 0
  | .decb => 1
  | .pse => 0
  | .psd => 1

/-- The fields of a command's word (R58). -/
def Instr.fields (i : Instr) : CmdFields :=
  { reserved := 0, fn := i.fn, m := i.m }

/-- A command is well formed when its word's fields are legal. -/
def Instr.wellFormed (i : Instr) : Bool := i.fields.legal

/-- "each row is a bijection over {0..15} (a permutation)" (R74): every one of the 16 nibbles stands in the row. -/
def SBox.rowOk (row : Vector Nibble 16) : Bool :=
  (List.range 16).all fun v => row.toList.contains (BitVec.ofNat 4 v)

/-- A valid `SBOX_TABLE`: all eight rows are permutations (R74). -/
def SBox.wellFormed (t : SBox) : Bool := t.toList.all SBox.rowOk

/-- Parameters the model may run with (R74). -/
def Params.wellFormed (p : Params) : Bool := SBox.wellFormed p.sbox

/-- A ROM index given as integers is in range: row 0..7, column 0..15 (R39, I7). -/
def romIndexOk (row col : Nat) : Bool := row < 8 && col < 16

end Sys2Proof
end

