-- ==== Sys2Proof/Decode.lean ====
section
/-!
DEFINITION. Decoding a command word (30_encoding R61-R63, total: every 32-bit word gives one outcome), and after it the encoder,
written from the field layout of R58-R60.
-/

namespace Sys2Proof

/-- One row of the opcode map: a word `w` is this row's when `w AND mask = pattern` (R61: mask 0xFFFFFFFF throughout). -/
structure OpcodeRow where
  mask : Word
  pattern : Word
  instr : Instr
deriving DecidableEq, Repr

/-- The opcode map of R61. -/
def opcodeTable : List OpcodeRow :=
  [ ⟨0xFFFFFFFF, 0x00000002, .keyx⟩,
    ⟨0xFFFFFFFF, 0x00000004, .gf⟩,
    ⟨0xFFFFFFFF, 0x00000006, .encb⟩,
    ⟨0xFFFFFFFF, 0x00000007, .decb⟩,
    ⟨0xFFFFFFFF, 0x00000008, .pse⟩,
    ⟨0xFFFFFFFF, 0x00000009, .psd⟩ ]

/-- Whether a word is a row's. -/
def OpcodeRow.hits (r : OpcodeRow) (w : Word) : Bool := w &&& r.mask = r.pattern

/-- R62: the command a word selects; `none` is the spec's `raise IllegalCommand(CMD)`, which the machine takes. -/
def decode (w : Word) : Option Instr :=
  (opcodeTable.find? (·.hits w)).map (·.instr)

/-- The fields of a word (R58). -/
def fieldsOf (w : Word) : CmdFields :=
  { reserved := w.extractLsb' 8 24, fn := w.extractLsb' 1 7, m := w.extractLsb' 0 1 }

/-- The word with the given fields (R58). -/
def wordOf (f : CmdFields) : Word := f.reserved ++ f.fn ++ f.m

/-- The word of a command (R58-R61). -/
def encode (i : Instr) : Word := wordOf i.fields

/-- The decoder on a word numbered as the opcode table numbers it: bit 0 the least significant bit of the one 32-bit word. A
number with bits above the word is no command word. -/
def decodeTableWord (_nbits w : Nat) : Option Instr :=
  if w < 2 ^ 32 then decode (BitVec.ofNat 32 w) else none

end Sys2Proof
end

