-- ==== Sys2Proof/Machine/State.lean ====
section
/-!
DEFINITION. The state of the core (10_state R20-R37) with the parameters it runs under, the host's side of its interface, the
reasons a step can stop, and the state after reset (R36).
-/

namespace Sys2Proof.Machine

/-- Why a step stops with a fault. -/
inductive Fault where
  /-- The host reads RES or BLKOUT while it holds no value: "the model faults that read rather than return a number" (R37, I12, D12).
  Raised by `readPort` alone, never by a command. Safe: it only forbids a run the spec gives no meaning. -/
  | readWithoutValue (p : Port)
deriving DecidableEq, Repr

/-- Why a step gives no meaning. -/
inductive Refusal where
  /-- An instruction that has no meaning yet; raised by arms of `exec` only. Safe. No arm raises it. -/
  | notModelled (mnemonic : String)
  /-- The parameter `SBOX_TABLE` is not eight permutations: "A model refuses a table that breaks the invariant. It does not run
  with one" (R74). Raised by `step`. Safe. -/
  | invalidTable
  /-- A stream command whose source is longer than a finite `MAX_STREAM_BYTES` (R113, I18). Raised at the key-load step. Safe. -/
  | streamTooLong
deriving DecidableEq, Repr

/-- Where the running command stands in the block engine: at its checks, at micro-step 0 (`load`), or in the rounds, which end
with `emit` (R93). DEDUCED (log 15): the spec implies this position and names no register for it. -/
inductive BlockPos where
  | check
  | load
  | run
deriving DecidableEq, Repr

/-- `ENG` (R33). BUSY carries the command that runs and its place in the block engine (log 15). -/
inductive Eng where
  | idle
  | busy (cmd : Instr) (pos : BlockPos)
deriving DecidableEq, Repr

/-- What the host's port `ENG` shows: IDLE or BUSY (R33). -/
def Eng.isIdle : Eng → Bool
  | .idle => true
  | .busy _ _ => false

/-- The block engine's working registers `L`, `R`, `RND`, `DIR` (R31). -/
structure BlockEngine where
  l : Word
  r : Word
  rnd : BitVec 6
  dir : Mode
deriving DecidableEq, Repr

/-- `FP_PHASE` (R32, R104). -/
inductive Phase where
  | keyload
  | read
  | xform
  | write
  | done
deriving DecidableEq, Repr

/-- The file block processor's registers (R32). `inBytes` is the pseudocode's `c`, the bytes of the last read before padding
(R100; log 15). -/
structure FileProc where
  phase : Phase
  mode : Mode
  inPos : Nat
  outPos : Nat
  chunk : Block
  chunkLen : Fin 9
  xblk : Block
  inBytes : List Byte
deriving DecidableEq, Repr

/-- The result a response carries on success (R57). -/
inductive Result where
  | none
  | rkout (rk : Schedule)
  | res (w : Word)
  | blkout (b : Block)
deriving DecidableEq, Repr

/-- A response: `STATUS`, the result, and `IOINFO` for IOFailure (R57). -/
structure Response where
  status : Word
  result : Result
  ioInfo : Option IoInfo
deriving DecidableEq, Repr

/-- An answered stream request as the host sees it (R104, R106): `read c` delivered the bytes c, `wrote v` accepted the block v. -/
inductive IoEvent where
  | read (c : List Byte)
  | readFailed (info : IoInfo)
  | wrote (v : Block)
  | writeFailed (v : Block) (info : IoInfo)
deriving DecidableEq, Repr

/-- The value a port read gave the host. -/
inductive PortValue where
  | status (w : Word)
  | res (w : Word)
  | blkout (b : Block)
  | eng (idle : Bool)
deriving DecidableEq, Repr

/-- The host's side (R10, R34): its moves to come, the operand record it presented last, its source and sink, and what it has
seen (log 8, log 14). `events` are the requests of the latest stream command; every list is oldest first. -/
structure HostSide where
  script : List HostMove
  ops : OperandRecord
  src : Source
  snk : List Byte
  snkAnswers : List Answer
  events : List IoEvent
  resps : List Response
  seen : List PortValue
deriving DecidableEq, Repr

/-- The machine. `par` are the parameters (R12), among them the ROM's contents (R20 `SBOX`). `resHeld` and `blkHeld` say whether
RES and BLKOUT hold a value in the sense of R37 (log 7). `freeCtr` counts the free values drawn (log 11). -/
structure State where
  par : Params
  rk : Schedule
  rkValid : Bool
  status : Word
  res : Word
  resHeld : Bool
  blkout : Block
  blkHeld : Bool
  be : BlockEngine
  fp : FileProc
  eng : Eng
  host : HostSide
  freeCtr : Nat
deriving DecidableEq, Repr

/-- The block engine after reset: "no value" in R36; zeros are the model's (DESIGN CHOICE, log 6). -/
def BlockEngine.reset : BlockEngine := { l := 0, r := 0, rnd := 0, dir := .encrypt }

/-- Eight zero bytes: what a block register of "no value" holds (DESIGN CHOICE, log 6). -/
def Block.zero : Block := Vector.replicate 8 0

/-- The file processor after reset: "no value" in R36; zeros are the model's (DESIGN CHOICE, log 6). -/
def FileProc.reset : FileProc :=
  { phase := .keyload, mode := .encrypt, inPos := 0, outPos := 0, chunk := Block.zero, chunkLen := 0, xblk := Block.zero,
    inBytes := [] }

/-- The host's side before its first move: nothing issued, nothing presented, nothing seen (R132; log 6, log 19). -/
def HostSide.reset : HostSide :=
  { script := [], ops := OperandRecord.empty, src := { bytes := [], answers := [] }, snk := [], snkAnswers := [], events := [],
    resps := [], seen := [] }

/-- The machine after reset (R36, R130): RK_VALID 0, STATUS 0, ENG IDLE, the ROM `SBOX_TABLE`; RES and BLKOUT hold no value; the
numbers in registers of "no value" are the model's (DESIGN CHOICE, log 6). -/
def State.reset : State :=
  { par := Config.params, rk := Vector.replicate 32 0, rkValid := false, status := 0, res := 0, resHeld := false,
    blkout := Block.zero, blkHeld := false, be := BlockEngine.reset, fp := FileProc.reset, eng := .idle, host := HostSide.reset,
    freeCtr := 0 }

end Sys2Proof.Machine
end

