-- ==== Sys2Proof/Machine/Flags.lean ====
section
/-!
DEFINITION. The status word (10_state R25). The core has no flags and no condition codes (R30): `STATUS` records the outcome of a
command and nothing else.
-/

namespace Sys2Proof.Machine

/-- Which side of a stream failed: `IOSIDE` 0 for the source, 1 for the sink (R25). -/
inductive IoSide where
  | source
  | sink
deriving DecidableEq, Repr

/-- The errors of the core with their causes (R115): the length found, the side and the host's failure value, the word that is
no command. -/
inductive Err where
  | invalidKeyLength (n : Nat)
  | invalidBlockLength (m : Nat)
  | ioFailure (side : IoSide) (info : IoInfo)
  | illegalCommand (cmd : Word)
  | noRoundKeys
deriving DecidableEq, Repr

/-- `STATUS.CODE`, bits 2:0 (R25). -/
def statusCode (w : Word) : BitVec 3 := w.extractLsb' 0 3

/-- `STATUS.IOSIDE`, bit 3 (R25). -/
def statusIoSide (w : Word) : BitVec 1 := w.extractLsb' 3 1

/-- `STATUS` 31:4, "written as 0, read as 0" (R25). -/
def statusReserved (w : Word) : BitVec 28 := w.extractLsb' 4 28

/-- The status word of a code and a side (R25). -/
def statusWord (code : BitVec 3) (side : BitVec 1) : Word := (0 : BitVec 28) ++ side ++ code

/-- The code of an error (R25, R115). -/
def Err.code : Err → BitVec 3
  | .invalidKeyLength _ => 1
  | .invalidBlockLength _ => 2
  | .ioFailure _ _ => 3
  | .illegalCommand _ => 4
  | .noRoundKeys => 5

/-- `IOSIDE` of an error: 1 for a failed sink write, 0 otherwise (R25, R117). -/
def Err.ioSide : Err → BitVec 1
  | .ioFailure .sink _ => 1
  | .ioFailure .source _ => 0
  | .invalidKeyLength _ => 0
  | .invalidBlockLength _ => 0
  | .illegalCommand _ => 0
  | .noRoundKeys => 0

/-- What `STATUS` holds after an error (R117). -/
def Err.status (e : Err) : Word := statusWord e.code e.ioSide

/-- `IOINFO` of the response: the host's failure value for IOFailure, nothing otherwise (R57, R118). -/
def Err.ioInfo : Err → Option IoInfo
  | .ioFailure _ info => some info
  | .invalidKeyLength _ => none
  | .invalidBlockLength _ => none
  | .illegalCommand _ => none
  | .noRoundKeys => none

/-- `STATUS` after success: `CODE` 0 OK (R25). -/
def statusOk : Word := statusWord 0 0

end Sys2Proof.Machine
end

