-- ==== Sys2Proof/Machine/Words.lean ====
section
/-!
DEFINITION. Word operations and the byte order of the core: rotation (00_scope R14), nibbles (R13), big-endian words (R15) and
block halves (20_memory R44, R45).
-/

namespace Sys2Proof.Machine

/-- `rotl32(v, n)` for 0 <= n < 32 (R14); for n = 0 the right shift by 32 gives 0. -/
def rotl32 (v : Word) (n : Nat) : Word := (v <<< n) ||| (v >>> (32 - n))

/-- Nibble i of a word, `v[4i+3:4i]` (R13). -/
def nibble (x : Word) (i : Fin 8) : Nibble := x.extractLsb' (4 * i.val) 4

/-- `BE32(b0, b1, b2, b3)`: b0 is the most significant byte (R15). -/
def be32 (b0 b1 b2 b3 : Byte) : Word := b0 ++ b1 ++ b2 ++ b3

/-- `bytesBE32(w)`, byte i: `w[31:24]` first, `w[7:0]` last (R15). -/
def byteBE (w : Word) (i : Fin 4) : Byte := w.extractLsb' (24 - 8 * i.val) 8

/-- The left half of a block: its first four bytes, big-endian (R45). -/
def leftHalf (b : Block) : Word := be32 b[0] b[1] b[2] b[3]

/-- The right half of a block: its last four bytes, big-endian (R45). -/
def rightHalf (b : Block) : Word := be32 b[4] b[5] b[6] b[7]

/-- `bytesBE32(hi) ++ bytesBE32(lo)`: the block whose first four bytes are `hi` (R45). -/
def blockOfHalves (hi lo : Word) : Block :=
  #v[byteBE hi 0, byteBE hi 1, byteBE hi 2, byteBE hi 3, byteBE lo 0, byteBE lo 1, byteBE lo 2, byteBE lo 3]

/-- The block of a byte sequence: its first 8 bytes, zeros in the places it does not reach. For 8 bytes it is those bytes; for
fewer it is `c ++ zeros(8 - |c|)` (R103, `PAD_BYTE` of R11). -/
def blockOfBytes (bs : List Byte) : Block := Vector.ofFn fun i : Fin 8 => bs.getD i.val 0

end Sys2Proof.Machine
end

