-- ==== Sys2Proof/Machine/Operands.lean ====
section
/-!
DEFINITION. Operand assembly (30_encoding R56, R64): every operand comes from the operand record unchanged. Nothing is extended,
scaled or masked, and a command reads only its own fields.
-/

namespace Sys2Proof.Machine

/-- `OPS.A` (R56). -/
def State.opA (s : State) : Word := s.host.ops.a

/-- `OPS.K` (R56). -/
def State.opK (s : State) : Word := s.host.ops.k

/-- `OPS.KEY`, a byte sequence of any length (R56). -/
def State.opKey (s : State) : List Byte := s.host.ops.key

/-- `OPS.BLK`, a byte sequence of any length (R56). -/
def State.opBlk (s : State) : List Byte := s.host.ops.blk

/-- `|OPS.KEY| = 32`, the only check on a key (R80, `KEY_BYTES` of R11). -/
def State.keyLengthOk (s : State) : Bool := s.opKey.length = 32

/-- `|OPS.BLK| = 8`, the only check on a block (R94, `BLOCK_BYTES` of R11). -/
def State.blkLengthOk (s : State) : Bool := s.opBlk.length = 8

/-- The block operand, once its length has been checked (R94). -/
def State.blkOperand (s : State) : Block := blockOfBytes s.opBlk

/-- Key word `Kj` = BE32(key[4j], key[4j+1], key[4j+2], key[4j+3]) (R44). -/
def keyWord (key : List Byte) (j : Nat) : Word :=
  be32 (key.getD (4 * j) 0) (key.getD (4 * j + 1) 0) (key.getD (4 * j + 2) 0) (key.getD (4 * j + 3) 0)

end Sys2Proof.Machine
end

