-- ==== Sys2Proof/Machine/Ops.lean ====
section
/-!
DEFINITION. The operations every command is built from: responding (00_scope R16), raising an error, which is this core's way of
taking an exception (60_exceptions R117), the stream primitives (44_file_processor R106), and the core's reset (70_reset R130).
There is no return from an exception: "There is no handler and no return-from-trap. After an error the core is IDLE, and the next
command the host issues runs normally" (R121), so an error's last effect, ENG <- IDLE, is all the return there is.
-/

namespace Sys2Proof.Machine

/-- One response to the host (R57): `STATUS` is written, the response carries its new value, ENG <- IDLE (R55). -/
def State.answerHost (s : State) (status : Word) (result : Result) (ioInfo : Option IoInfo) : State :=
  { s with
    status := status
    eng := .idle
    host := { s.host with resps := s.host.resps ++ [{ status := status, result := result, ioInfo := ioInfo }] } }

/-- `respond(...)`: the command ends with success, `STATUS` <- 0 (R16, R25). -/
def State.respond (s : State) (result : Result) : State := s.answerHost statusOk result none

/-- `raise E(info)` (R117): the command stops; `STATUS` <- code(E) with `IOSIDE`; the response carries `IOINFO` for IOFailure and
no result; ENG <- IDLE. Nothing else changes; what the command wrote before the raise stays. -/
def State.raise (s : State) (e : Err) : State := s.answerHost e.status .none e.ioInfo

/-- The schedule is discarded: RK_VALID <- 0, the RK registers keep their bits (R109). -/
def State.discardKeys (s : State) : State := { s with rkValid := false }

/-- What a stream request gives back (R106). `waiting`: the host has not answered (R141). -/
inductive ReadAnswer where
  | bytes (c : List Byte)
  | failed (info : IoInfo)
  | waiting
deriving DecidableEq, Repr

/-- What a sink write gives back (R106). -/
inductive WriteAnswer where
  | ok
  | failed (info : IoInfo)
  | waiting
deriving DecidableEq, Repr

/-- The source serves a request for up to 8 bytes: it delivers its first 8 bytes, or what remains, and consumes them (R106, R49). -/
def State.deliver (s : State) (rest : List Answer) : State :=
  { s with
    host := { s.host with
      src := { bytes := s.host.src.bytes.drop 8, answers := rest }
      events := s.host.events ++ [.read (s.host.src.bytes.take 8)] } }

/-- The source fails a request: nothing is delivered (R106). -/
def State.failRead (s : State) (info : IoInfo) (rest : List Answer) : State :=
  { s with
    host := { s.host with
      src := { bytes := s.host.src.bytes, answers := rest }
      events := s.host.events ++ [.readFailed info] } }

/-- `SrcRead(8)` (R106). A source with no answer listed serves every request. -/
def State.srcRead (s : State) : ReadAnswer × State :=
  match s.host.src.answers with
  | [] => (.bytes (s.host.src.bytes.take 8), s.deliver [])
  | .ok :: rest => (.bytes (s.host.src.bytes.take 8), s.deliver rest)
  | .fail info :: rest => (.failed info, s.failRead info rest)
  | .silent :: _ => (.waiting, s)

/-- The sink takes a block: all 8 bytes are appended (R43, R106). -/
def State.sinkTake (s : State) (v : Block) (rest : List Answer) : State :=
  { s with
    host := { s.host with
      snk := s.host.snk ++ v.toList
      snkAnswers := rest
      events := s.host.events ++ [.wrote v] } }

/-- The sink fails a write: it holds what it held before followed by some prefix of v, "of length 0 to 8 that no one specifies"
(R106). The prefix's length is a free value (log 11). -/
def State.failWrite (s : State) (v : Block) (info : IoInfo) (rest : List Answer) : State :=
  { s with
    freeCtr := s.freeCtr + 1
    host := { s.host with
      snk := s.host.snk ++ v.toList.take (Config.failedWritePrefix s.freeCtr).val
      snkAnswers := rest
      events := s.host.events ++ [.writeFailed v info] } }

/-- `SinkWrite(8, v)` (R106). A sink with no answer listed accepts every block. -/
def State.sinkWrite (s : State) (v : Block) : WriteAnswer × State :=
  match s.host.snkAnswers with
  | [] => (.ok, s.sinkTake v [])
  | .ok :: rest => (.ok, s.sinkTake v rest)
  | .fail info :: rest => (.failed info, s.failWrite v info rest)
  | .silent :: _ => (.waiting, s)

/-- Reset (R130, R131): every register of the core takes its value of R36, whatever was running; the ROM and the parameters stay,
no response is sent, and what the source delivered and the sink accepted stays as it is. -/
def State.resetCore (s : State) : State :=
  { State.reset with par := s.par, host := s.host, freeCtr := s.freeCtr }

end Sys2Proof.Machine
end

