-- ==== Sys2Proof/Machine/SBox.lean ====
section
/-!
DEFINITION. The S-box ROM's read and the eight-lane nibble substitution (40_sbox R70-R72). Neither is a command (R71).
-/

namespace Sys2Proof.Machine

/-- `RomRead(row, col)` = `SBOX[row][col]`, row 3 bits, col 4 bits (R70). -/
def romRead (t : SBox) (row : Fin 8) (col : Nibble) : Nibble := t[row][col.toNat]'col.isLt

/-- The same read for a caller with integers: out of range is refused (R39, I7). -/
def romRead? (t : SBox) (row col : Nat) : Option Nibble :=
  if h : row < 8 ∧ col < 16 then some (romRead t ⟨row, h.1⟩ (BitVec.ofNat 4 col)) else none

/-- The ROM's 7-bit index: row in the high 3 bits, column in the low 4 (R39). -/
def romIndex (row : Fin 8) (col : Nibble) : BitVec 7 := BitVec.ofNat 3 row.val ++ col

/-- The ROM read by its 7-bit index (R39). -/
def romAt (t : SBox) (idx : BitVec 7) : Nibble :=
  romRead t ⟨(idx.extractLsb' 4 3).toNat, (idx.extractLsb' 4 3).isLt⟩ (idx.extractLsb' 0 4)

/-- `Subst(x)` = RomRead(7, x[31:28]) ++ RomRead(6, x[27:24]) ++ ... ++ RomRead(0, x[3:0]) (R72). -/
def subst (t : SBox) (x : Word) : Word :=
  romRead t 7 (nibble x 7) ++ romRead t 6 (nibble x 6) ++ romRead t 5 (nibble x 5) ++ romRead t 4 (nibble x 4) ++
    romRead t 3 (nibble x 3) ++ romRead t 2 (nibble x 2) ++ romRead t 1 (nibble x 1) ++ romRead t 0 (nibble x 0)

end Sys2Proof.Machine
end

