-- ==== Sys2Proof/Machine/RoundFunction.lean ====
section
/-!
DEFINITION. The round function G (42_round_function R83, R84) and the command GF (R85).
-/

namespace Sys2Proof.Machine

/-- `G(a, k)` (R84): add modulo 2^32; then rotate left by `ROT` = 11 and substitute, or, for `SUB_THEN_ROT`, substitute and rotate. -/
def roundG (p : Params) (a k : Word) : Word :=
  let t1 := a + k
  match p.gOrder with
  | .rotThenSub => subst p.sbox (rotl32 t1 11)
  | .subThenRot => rotl32 (subst p.sbox t1) 11

/-- GF (R85): RES <- G(A, K); no key is needed and there is no error. -/
def execGf (s : State) : Host.Outcome State Fault Refusal :=
  let v := roundG s.par s.opA s.opK
  .next ({ s with res := v, resHeld := true }.respond (.res v))

end Sys2Proof.Machine
end

