-- ==== Sys2Proof/Machine/BlockCipher.lean ====
section
/-!
DEFINITION. The block engine (43_block_cipher): the Feistel round (R90), the 32-round transforms (R91, R92), their micro-steps on
the working registers (R93), and the commands ENCB (R94) and DECB (R95).
-/

namespace Sys2Proof.Machine

/-- `Round(L, R, k)` = (R, L XOR G(R, k)), both from the old pair (R90), for any function `g` in the place of G (R96). -/
def feistelRound (g : Word → Word → Word) (lr : Word × Word) (k : Word) : Word × Word :=
  (lr.2, lr.1 ^^^ g lr.2 k)

/-- The rounds of a transform, one for each round key in the order given, every one swapping (R91, R92). -/
def feistelRounds (g : Word → Word → Word) (ks : List Word) (lr : Word × Word) : Word × Word :=
  ks.foldl (feistelRound g) lr

/-- A transform under round keys in the order they are used: split big-endian, the rounds, then `R || L` (R91). -/
def blockTransform (g : Word → Word → Word) (ks : List Word) (b : Block) : Block :=
  let out := feistelRounds g ks (leftHalf b, rightHalf b)
  blockOfHalves out.2 out.1

/-- `EncryptCore(b, rk)`: for i = 0 to 31 (R91). -/
def encryptCore (p : Params) (rk : Schedule) (b : Block) : Block := blockTransform (roundG p) rk.toList b

/-- `DecryptCore(b, rk)`: for i = 31 downto 0 (R92). -/
def decryptCore (p : Params) (rk : Schedule) (b : Block) : Block := blockTransform (roundG p) rk.toList.reverse b

/-- The transform of a mode. -/
def cipherCore (p : Params) (m : Mode) (rk : Schedule) (b : Block) : Block :=
  match m with
  | .encrypt => encryptCore p rk b
  | .decrypt => decryptCore p rk b

/-- Micro-step 0: L, R from the block, RND <- 0, DIR <- dir (R93). -/
def engineLoad (b : Block) (dir : Mode) : BlockEngine :=
  { l := leftHalf b, r := rightHalf b, rnd := 0, dir := dir }

/-- The round key of the round to come: index RND for Encrypt, 31 - RND for Decrypt (R93, R41). -/
def engineKey (rk : Schedule) (e : BlockEngine) : Word :=
  match e.dir with
  | .encrypt => rk.toList.getD e.rnd.toNat 0
  | .decrypt => rk.toList.getD (31 - e.rnd.toNat) 0

/-- Micro-steps 1..32: one round, RND <- RND + 1 (R93). -/
def engineRound (p : Params) (rk : Schedule) (e : BlockEngine) : BlockEngine :=
  let lr := feistelRound (roundG p) (e.l, e.r) (engineKey rk e)
  { e with l := lr.1, r := lr.2, rnd := e.rnd + 1 }

/-- Micro-step 33: bytesBE32(R) ++ bytesBE32(L) (R93). -/
def engineEmit (e : BlockEngine) : Block := blockOfHalves e.r e.l

/-- n rounds. -/
def engineRounds (p : Params) (rk : Schedule) : Nat → BlockEngine → BlockEngine
  | 0, e => e
  | n + 1, e => engineRounds p rk n (engineRound p rk e)

/-- The working registers as a whole transform leaves them: load, then `NROUNDS` = 32 rounds (R93, R11). -/
def engineAfter (p : Params) (m : Mode) (rk : Schedule) (b : Block) : BlockEngine :=
  engineRounds p rk 32 (engineLoad b m)

/-- ENCB and DECB (R94, R95): the length check, then RK_VALID, then BLKOUT <- the transform of BLK under RK. -/
def blockCommand (m : Mode) (s : State) : State :=
  if !s.blkLengthOk then s.raise (.invalidBlockLength s.opBlk.length)
  else if !s.rkValid then s.raise .noRoundKeys
  else
    let out := cipherCore s.par m s.rk s.blkOperand
    { s with be := engineAfter s.par m s.rk s.blkOperand, blkout := out, blkHeld := true }.respond (.blkout out)

/-- ENCB, encrypt one block (R94). -/
def execEncb (s : State) : Host.Outcome State Fault Refusal := .next (blockCommand .encrypt s)

/-- DECB, decrypt one block (R95). -/
def execDecb (s : State) : Host.Outcome State Fault Refusal := .next (blockCommand .decrypt s)

end Sys2Proof.Machine
end

