-- ==== Sys2Proof/Machine/KeySchedule.lean ====
section
/-!
DEFINITION. The round-key scheduler (41_key_schedule R77) and the command KEYX (R78).
-/

namespace Sys2Proof.Machine

/-- `KS(key)`: ks[i] = K(i mod 8) for i = 0..23, ks[i] = K(31 - i) for i = 24..31 (R77). -/
@[irreducible] def keySchedule (key : List Byte) : Schedule :=
  Vector.ofFn fun i : Fin 32 => if i.val < 24 then keyWord key (i.val % 8) else keyWord key (31 - i.val)

/-- KEYX (R78): the length check comes before any derivation; then RK <- KS(KEY), RK_VALID <- 1, and the response carries RKOUT. -/
def execKeyx (s : State) : Host.Outcome State Fault Refusal :=
  if s.keyLengthOk then
    let ks := keySchedule s.opKey
    .next ({ s with rk := ks, rkValid := true }.respond (.rkout ks))
  else .next (s.raise (.invalidKeyLength s.opKey.length))

end Sys2Proof.Machine
end

