-- ==== Sys2Proof/Machine/FileProcessor.lean ====
section
/-!
DEFINITION. The file block processor (44_file_processor): the phases of a stream command (R104) and the commands PSE and PSD
(R100), which run them in a loop.
-/

namespace Sys2Proof.Machine

/-- The start of a stream command (R106): the host presents its source and an empty sink, and the command is under way. R43 and R106
do not say which micro-step this falls in: here it is the KEYLOAD micro-step, before its length check (DESIGN CHOICE, log 28). -/
def State.openStream (s : State) (i : Instr) (m : Mode) : State :=
  { s with
    fp := { s.fp with mode := m, phase := .keyload }
    eng := .busy i .load
    host := { s.host with src := s.host.ops.src, snk := [], snkAnswers := s.host.ops.snk, events := [] } }

/-- Whether the source is longer than a finite `MAX_STREAM_BYTES` (R113). -/
def State.streamTooLong (s : State) : Bool :=
  match s.par.maxStream with
  | none => false
  | some n => n < s.host.src.bytes.length

/-- KEYLOAD (R101): FP_MODE <- mode; a key of the wrong length discards the schedule and ends the command before any request; else
RK <- KS(KEY), IN_POS <- 0, OUT_POS <- 0, and the stream goes on to READ. A source over the bound is refused (R113, log 5). -/
def State.keyLoadStep (s : State) (i : Instr) (m : Mode) : Host.Outcome State Fault Refusal :=
  let s := s.openStream i m
  if !s.keyLengthOk then .next (s.discardKeys.raise (.invalidKeyLength s.opKey.length))
  else if s.streamTooLong then .refused .streamTooLong
  else .next { s with rk := keySchedule s.opKey, fp := { s.fp with phase := .read, inPos := 0, outPos := 0 } }

/-- A read that delivered c (R100, R104): CHUNK_LEN <- |c|, IN_POS <- IN_POS + |c|, then XFORM, or DONE when |c| = 0. -/
def FileProc.took (f : FileProc) (c : List Byte) : FileProc :=
  { f with
    inBytes := c
    chunkLen := Fin.ofNat 9 c.length
    inPos := f.inPos + c.length
    phase := if c.isEmpty then .done else .xform }

/-- READ (R102, R104): one SrcRead(8). A failure discards the schedule and raises IOFailure on the source's side (R107). While the
host does not answer, the command waits here (R141). -/
def State.readStep (s : State) : State :=
  match s.srcRead with
  | (.bytes c, s) => { s with fp := s.fp.took c }
  | (.failed info, s) => s.discardKeys.raise (.ioFailure .source info)
  | (.waiting, s) => s

/-- XFORM (R103, R104): the chunk padded on the right with zeros, and its transform, with the block engine as the transform leaves it. -/
def State.xformStep (s : State) (m : Mode) : State :=
  let c := blockOfBytes s.fp.inBytes
  { s with
    be := engineAfter s.par m s.rk c
    fp := { s.fp with chunk := c, xblk := cipherCore s.par m s.rk c, phase := .write } }

/-- WRITE (R104): one SinkWrite(8, XBLK); on success OUT_POS <- OUT_POS + 8 and back to READ. A failure discards the schedule and
raises IOFailure on the sink's side (R108). While the host does not answer, the command waits here (R141). -/
def State.writeStep (s : State) : State :=
  match s.sinkWrite s.fp.xblk with
  | (.ok, s) => { s with fp := { s.fp with outPos := s.fp.outPos + 8, phase := .read } }
  | (.failed info, s) => s.discardKeys.raise (.ioFailure .sink info)
  | (.waiting, s) => s

/-- DONE (R104, R109): RK_VALID <- 0, STATUS <- 0, respond. -/
def State.doneStep (s : State) : State := s.discardKeys.respond .none

/-- The loop of R100: READ, then XFORM and WRITE and round again, until a read delivers 0 bytes, a request fails, or the host does
not answer. The number bounds the reads. -/
def State.streamLoop (m : Mode) : Nat → State → State
  | 0, s => s
  | n + 1, s =>
    let s1 := s.readStep
    match s1.fp.phase with
    | .xform =>
      let s2 := (s1.xformStep m).writeStep
      match s2.fp.phase with
      | .read => State.streamLoop m n s2
      | _ => s2
    | .done => s1.doneStep
    | _ => s1

/-- How many reads a stream of N bytes makes at most: ceil(N/8) + 1 (R102). -/
def streamReads (n : Nat) : Nat := (n + 7) / 8 + 1

/-- PSE and PSD (R100). -/
def streamCommand (i : Instr) (m : Mode) (s : State) : Host.Outcome State Fault Refusal :=
  match s.keyLoadStep i m with
  | .next s =>
    match s.fp.phase with
    | .read => .next (s.streamLoop m (streamReads s.host.src.bytes.length))
    | _ => .next s
  | .fault r => .fault r
  | .refused r => .refused r

/-- PSE, encrypt a stream (R100). -/
def execPse (s : State) : Host.Outcome State Fault Refusal := streamCommand .pse .encrypt s

/-- PSD, decrypt a stream (R100). -/
def execPsd (s : State) : Host.Outcome State Fault Refusal := streamCommand .psd .decrypt s

end Sys2Proof.Machine
end

