-- ==== Sys2Proof/Machine/Dispatch.lean ====
section
/-!
DEFINITION. Which meaning each command has: one arm per constructor of Instr. A meaning is the whole command, from its acceptance to
its response (00_scope R9).
-/

namespace Sys2Proof.Machine

def exec (i : Instr) (s : State) : Host.Outcome State Fault Refusal :=
  match i with
  | .keyx => Sys2Proof.Machine.execKeyx s
  | .gf => Sys2Proof.Machine.execGf s
  | .encb => Sys2Proof.Machine.execEncb s
  | .decb => Sys2Proof.Machine.execDecb s
  | .pse => Sys2Proof.Machine.execPse s
  | .psd => Sys2Proof.Machine.execPsd s

end Sys2Proof.Machine
end

