-- ==== Sys2Proof/Machine/Micro.lean ====
section
/-!
DEFINITION. The micro-steps of a running command (43_block_cipher R93, 44_file_processor R104): what a reset in mid-command comes
between. `exec` is the whole command; these are the same command one micro-step at a time.
-/

namespace Sys2Proof.Machine

/-- The command is accepted (R55, R33): ENG <- BUSY, at its checks; a stream command starts at KEYLOAD (R104). DESIGN CHOICE (log 28):
acceptance leaves the host's `src` and `snk` as the stream before left them; the command's own source and empty sink become the live
ones at the KEYLOAD micro-step (`openStream`), so a reset that comes between the two finds the earlier stream's sink. -/
def State.beginCommand (s : State) (i : Instr) : State :=
  match i with
  | .keyx | .gf | .encb | .decb => { s with eng := .busy i .check }
  | .pse | .psd => { s with eng := .busy i .check, fp := { s.fp with phase := .keyload } }

/-- One micro-step of ENCB or DECB: the checks; load; while RND < 32 a round; then emit into BLKOUT and respond (R93-R95). -/
def blockMicro (i : Instr) (m : Mode) (pos : BlockPos) (s : State) : State :=
  match pos with
  | .check =>
    if !s.blkLengthOk then s.raise (.invalidBlockLength s.opBlk.length)
    else if !s.rkValid then s.raise .noRoundKeys
    else { s with eng := .busy i .load }
  | .load => { s with be := engineLoad s.blkOperand m, eng := .busy i .run }
  | .run =>
    if s.be.rnd < 32 then { s with be := engineRound s.par s.rk s.be }
    else { s with blkout := engineEmit s.be, blkHeld := true }.respond (.blkout (engineEmit s.be))

/-- One micro-step of XFORM: pad into CHUNK and load; while RND < 32 a round; then emit into XBLK and go to WRITE (R104, R93). -/
def xformMicro (i : Instr) (m : Mode) (pos : BlockPos) (s : State) : State :=
  match pos with
  | .check | .load =>
    let c := blockOfBytes s.fp.inBytes
    { s with be := engineLoad c m, fp := { s.fp with chunk := c }, eng := .busy i .run }
  | .run =>
    if s.be.rnd < 32 then { s with be := engineRound s.par s.rk s.be }
    else { s with fp := { s.fp with xblk := engineEmit s.be, phase := .write }, eng := .busy i .load }

/-- One micro-step of PSE or PSD, by FP_PHASE (R104). -/
def streamMicro (i : Instr) (m : Mode) (pos : BlockPos) (s : State) : Host.Outcome State Fault Refusal :=
  match s.fp.phase with
  | .keyload => s.keyLoadStep i m
  | .read => .next s.readStep
  | .xform => .next (xformMicro i m pos s)
  | .write => .next s.writeStep
  | .done => .next s.doneStep

/-- One micro-step of the running command; an idle core takes none (R129, R132). KEYX and GF end in one step (R141). -/
def microStep (s : State) : Host.Outcome State Fault Refusal :=
  match s.eng with
  | .idle => .next s
  | .busy i pos =>
    match i with
    | .keyx => execKeyx s
    | .gf => execGf s
    | .encb => .next (blockMicro .encb .encrypt pos s)
    | .decb => .next (blockMicro .decb .decrypt pos s)
    | .pse => streamMicro .pse .encrypt pos s
    | .psd => streamMicro .psd .decrypt pos s

/-- n micro-steps, stopping at a fault or a refusal. -/
def microRun : Nat → State → Host.Outcome State Fault Refusal
  | 0, s => .next s
  | n + 1, s =>
    match microStep s with
    | .next t => microRun n t
    | .fault r => .fault r
    | .refused r => .refused r

/-- How many micro-steps end a command (R141): one for KEYX and GF; the checks, load, 32 rounds and emit for ENCB and DECB; for a
stream of n bytes the key load, ceil(n/8) + 1 reads, ceil(n/8) transforms of 34 micro-steps with their writes, and DONE. -/
def microBound (i : Instr) (n : Nat) : Nat :=
  match i with
  | .keyx | .gf => 1
  | .encb | .decb => 35
  | .pse | .psd => 1 + ((n + 7) / 8 + 1) + (n + 7) / 8 * 35 + 1

end Sys2Proof.Machine
end

