-- ==== Sys2Proof/Machine/HostPort.lean ====
section
/-!
DEFINITION. The core's interface to the host: presenting a command (30_encoding R55), reading a port (10_state R29, R37), reset
(70_reset R130), and which of the host's moves and the core's micro-steps comes next (R123, R135).
-/

namespace Sys2Proof.Machine

/-- The host's moves still to come. -/
def State.withScript (s : State) (rest : List HostMove) : State :=
  { s with host := { s.host with script := rest } }

/-- The host presents a command's operand record (R55, R56). -/
def State.present (s : State) (c : Command) : State :=
  { s with host := { s.host with ops := c.ops } }

/-- A command presented to an idle core and run to its response (R55, R9): decoding reads `CMD` alone and comes first; a word that is
no command raises IllegalCommand (R62, R63, R116). -/
def issueCommand (c : Command) (s : State) : Host.Outcome State Fault Refusal :=
  match decode c.cmd with
  | some i => exec i (s.present c)
  | none => .next ((s.present c).raise (.illegalCommand c.cmd))

/-- A command presented to an idle core and only accepted: its micro-steps follow, one a step (R55, R93, R104). DESIGN CHOICE (log 22):
a word that is no command is accepted, decoded and answered in this one step, its whole run by R141, so that ENG never shows BUSY for
it and no reset or port read comes between; a command, KEYX and GF too, has this acceptance as a step before its first micro-step. -/
def startCommand (c : Command) (s : State) : Host.Outcome State Fault Refusal :=
  match decode c.cmd with
  | some i => .next ((s.present c).beginCommand i)
  | none => .next ((s.present c).raise (.illegalCommand c.cmd))

/-- The value of a port; RES and BLKOUT have one only once a command has written them since reset (R37). -/
def State.portValue (s : State) (p : Port) : Option PortValue :=
  match p with
  | .status => some (.status s.status)
  | .res => if s.resHeld then some (.res s.res) else none
  | .blkout => if s.blkHeld then some (.blkout s.blkout) else none
  | .eng => some (.eng s.eng.isIdle)

/-- A host read of a port (R29): the host sees the value and the core is unchanged; a register with no value faults the read:
"the model faults that read rather than return a number" (R37, I12, D12). -/
def readPort (p : Port) (s : State) : Host.Outcome State Fault Refusal :=
  match s.portValue p with
  | some v => .next { s with host := { s.host with seen := s.host.seen ++ [v] } }
  | none => .fault (.readWithoutValue p)

/-- The host keeps the first n bytes of its sink and lets the rest go (R106, its row "command end": "keep, discard or truncate
`SNK`"; n = 0 discards it). The core is not touched: "keeping it after, is the host's business" (R43). -/
def State.cutSink (s : State) (n : Nat) : State :=
  { s with host := { s.host with snk := s.host.snk.take n } }

/-- What happens next. Reset and port reads come when the host makes them, reset in place of a micro-step (R123, R131). A command
is taken when ENG = IDLE; one that stands while ENG = BUSY is held, and the running command goes on (R135). The sink is cut when
ENG = IDLE; a cut that stands while ENG = BUSY is held likewise, for the host writes nothing to the sink in a stream command (R138;
DESIGN CHOICE, log 29). The moves come in the script's order, so a reset, port read or tick the script lists after a held move waits
behind it; a reset that ends the running command stands before the held command in the script (DESIGN CHOICE, log 30). With no move
to come the running command goes on, and an idle core waits (R132). -/
def hostStep (s : State) : Host.Outcome State Fault Refusal :=
  match s.host.script with
  | [] => microStep s
  | .tick :: rest => microStep (s.withScript rest)
  | .reset :: rest => .next (s.withScript rest).resetCore
  | .read p :: rest => readPort p (s.withScript rest)
  | .issue c :: rest =>
    match s.eng with
    | .idle => issueCommand c (s.withScript rest)
    | .busy _ _ => microStep s
  | .start c :: rest =>
    match s.eng with
    | .idle => startCommand c (s.withScript rest)
    | .busy _ _ => microStep s
  | .cutSink n :: rest =>
    match s.eng with
    | .idle => .next ((s.withScript rest).cutSink n)
    | .busy _ _ => microStep s

/-- The host's script with a command word in front, carrying the operand record as it stands at the port, and an idle core to take it. -/
def State.withCommandWord (s : State) (w : Word) : State :=
  { s with eng := .idle, host := { s.host with script := .issue { cmd := w, ops := s.host.ops } :: s.host.script } }

end Sys2Proof.Machine
end

