-- ==== Sys2Proof/Machine/Step.lean ====
section
/-!
DEFINITION. One step of the machine, and where it finds its next command. The core has no program counter and fetches nothing
(10_state R28): commands arrive from the host in the order the host issues them (R55).
-/

namespace Sys2Proof.Machine

/-- One step: nothing runs with an S-box table that is not eight permutations (R74); else what `hostStep` says comes next. -/
def step (s : State) : Host.Outcome State Fault Refusal :=
  if s.par.wellFormed then hostStep s else .refused .invalidTable

/-- The command word w as the host's very next command, with the operand record that stands at the port (log 19). -/
def State.withFetchWord (s : State) (_nbits w : Nat) : State := s.withCommandWord (BitVec.ofNat 32 w)

end Sys2Proof.Machine
end

