-- ==== Sys2Proof/Machine/Assembler.lean ====
section
/-!
DEFINITION. The text of a command (30_encoding R66-R69): a total disassembler, and an assembler for the seven forms of a line.
Text is a list of characters. What the spec leaves open about blanks and letter case is fixed in log 23.
-/

namespace Sys2Proof.Machine

/-- A line of text. -/
abbrev Text := List Char

/-- The hexadecimal digit of a value below 16. -/
def hexChar (n : Nat) : Char := "0123456789abcdef".toList.getD n '?'

/-- The 8 hex digits of a word, most significant first. -/
def hexDigits8 (w : Word) : Text :=
  [28, 24, 20, 16, 12, 8, 4, 0].map fun k => hexChar ((w >>> k).toNat % 16)

/-- A disassembled word, "marked illegal" where it is no command (R69). -/
structure DisasmLine where
  text : Text
  illegal : Bool
deriving DecidableEq, Repr

/-- R69: a legal word prints its mnemonic, any other word prints as `.word 0x<8 hex digits>` and is marked illegal. -/
def disassemble (w : Word) : DisasmLine :=
  match decode w with
  | some i => { text := i.mnemonic.toList, illegal := false }
  | none => { text := ".word 0x".toList ++ hexDigits8 w, illegal := true }

/-- The value of a hex digit, in either case. -/
def hexValue? (c : Char) : Option Nat :=
  if '0' ≤ c ∧ c ≤ '9' then some (c.toNat - '0'.toNat)
  else if 'a' ≤ c ∧ c ≤ 'f' then some (c.toNat - 'a'.toNat + 10)
  else if 'A' ≤ c ∧ c ≤ 'F' then some (c.toNat - 'A'.toNat + 10)
  else none

/-- Whether a character is a hex digit. -/
def isHex (c : Char) : Bool := (hexValue? c).isSome

/-- Whether a character is a decimal digit. -/
def isDec (c : Char) : Bool := '0' ≤ c && c ≤ '9'

/-- The value of a digit string in a base. -/
def digitsValue (base : Nat) (ds : Text) : Nat :=
  ds.foldl (fun v c => v * base + (hexValue? c).getD 0) 0

/-- A parser's result: the value and the text after it. -/
abbrev Parsed (α : Type) := Option (α × Text)

/-- Blanks dropped from the front. -/
def skipBlanks (t : Text) : Text := t.dropWhile (· == ' ')

/-- The given text, and what follows it. -/
def afterText? (lead t : Text) : Option Text :=
  if lead.isPrefixOf t then some (t.drop lead.length) else none

/-- A decimal number of at least one digit. -/
def parseDec (t : Text) : Parsed Nat :=
  let ds := t.takeWhile isDec
  if ds.isEmpty then none else some (digitsValue 10 ds, t.dropWhile isDec)

/-- `<word>`: `0x` and 1 to 8 hex digits, or decimal; 32 bits unsigned (R67). -/
def parseWord (t : Text) : Parsed Word :=
  match afterText? "0x".toList t with
  | some u =>
    let ds := u.takeWhile isHex
    if ds.isEmpty ∨ 8 < ds.length then none
    else some (BitVec.ofNat 32 (digitsValue 16 ds), u.dropWhile isHex)
  | none =>
    match parseDec t with
    | some (n, u) => if n < 2 ^ 32 then some (BitVec.ofNat 32 n, u) else none
    | none => none

/-- The byte of two hex digits. -/
def hexByte? (c d : Char) : Option Byte :=
  match hexValue? c, hexValue? d with
  | some x, some y => some (BitVec.ofNat 8 (16 * x + y))
  | _, _ => none

/-- The inside of `h"..."` up to its closing quote: an even number of hex digits, first byte first (R67). -/
def parseHexBytes : Text → Parsed (List Byte)
  | '"' :: t => some ([], t)
  | c :: d :: t =>
    match hexByte? c d, parseHexBytes t with
    | some b, some (bs, u) => some (b :: bs, u)
    | _, _ => none
  | _ => none

/-- The inside of `a"..."` up to its closing quote: ASCII, one byte a character, `\x<hh>` for any byte (R67). -/
def parseAsciiBytes : Text → Parsed (List Byte)
  | '"' :: t => some ([], t)
  | '\\' :: 'x' :: c :: d :: t =>
    match hexByte? c d, parseAsciiBytes t with
    | some b, some (bs, u) => some (b :: bs, u)
    | _, _ => none
  | '\\' :: _ => none
  | c :: t =>
    match parseAsciiBytes t with
    | some (bs, u) => if c.toNat < 128 then some (BitVec.ofNat 8 c.toNat :: bs, u) else none
    | none => none
  | [] => none

/-- `<i>..<j>)`: the bytes i, i+1, ..., j-1 (R67). R67 gives `<i>` and `<j>` no literal form: they are read as decimal numbers, as in its
examples, and not as hexadecimal ones; and i <= j <= 256 is asked for (DESIGN CHOICE, log 23). -/
def parseRange (t : Text) : Parsed (List Byte) :=
  match parseDec t with
  | some (i, u) =>
    match afterText? "..".toList u with
    | some u =>
      match parseDec u with
      | some (j, ')' :: u) =>
        if i ≤ j ∧ j ≤ 256 then some ((List.range (j - i)).map fun n => BitVec.ofNat 8 (i + n), u) else none
      | _ => none
    | none => none
  | none => none

/-- `<bytes>` in its three spellings (R67). -/
def parseBytes (t : Text) : Parsed (List Byte) :=
  match t with
  | 'h' :: '"' :: u => parseHexBytes u
  | 'a' :: '"' :: u => parseAsciiBytes u
  | _ =>
    match afterText? "bytes(".toList t with
    | some u => parseRange u
    | none => none

/-- `src(<bytes>)`: a host source with its content (R67). The text does not say how it answers reads, which is the host's to choose
(R106): a source from text serves every one (DESIGN CHOICE, log 23). -/
def parseSrc (t : Text) : Parsed Source :=
  match afterText? "src(".toList t with
  | some u =>
    match parseBytes u with
    | some (bs, ')' :: u) => some ({ bytes := bs, answers := [] }, u)
    | _ => none
  | none => none

/-- `snk(<name>)`: a host sink (R67); the core sees its answers only, so the name is read and dropped (log 12). The
text does not say how the sink answers writes, which is the host's to choose (R106): a sink from text accepts every one (DESIGN
CHOICE, log 23). -/
def parseSnk (t : Text) : Parsed (List Answer) :=
  match afterText? "snk(".toList t with
  | some u =>
    match u.dropWhile (· != ')') with
    | ')' :: rest => if u.takeWhile (· != ')') = [] then none else some ([], rest)
    | _ => none
  | none => none

/-- A comma, with blanks around it. -/
def afterComma? (t : Text) : Option Text :=
  match skipBlanks t with
  | ',' :: u => some (skipBlanks u)
  | _ => none

/-- Nothing but blanks to the end of the line. -/
def atEnd (t : Text) : Bool := (skipBlanks t).isEmpty

/-- The operand of `keyx`, `encb` and `decb`: one `<bytes>`. -/
def parseBytesLine (t : Text) : Option (List Byte) :=
  match parseBytes t with
  | some (bs, u) => if atEnd u then some bs else none
  | none => none

/-- The operands of `gf`: two `<word>`s. -/
def parseWordsLine (t : Text) : Option (Word × Word) :=
  match parseWord t with
  | some (a, u) =>
    match afterComma? u with
    | some u =>
      match parseWord u with
      | some (k, u) => if atEnd u then some (a, k) else none
      | none => none
    | none => none
  | none => none

/-- The operands of `pse` and `psd`: `<bytes>, <src>, <snk>`. -/
def parseStreamLine (t : Text) : Option (List Byte × Source × List Answer) :=
  match parseBytes t with
  | some (key, u) =>
    match afterComma? u with
    | some u =>
      match parseSrc u with
      | some (src, u) =>
        match afterComma? u with
        | some u =>
          match parseSnk u with
          | some (snk, u) => if atEnd u then some (key, src, snk) else none
          | none => none
        | none => none
      | none => none
    | none => none
  | none => none

/-- The operand record of a command's line (R66). -/
def parseOperands (i : Instr) (t : Text) : Option OperandRecord :=
  match i with
  | .keyx => (parseBytesLine t).map fun bs => { OperandRecord.empty with key := bs }
  | .gf => (parseWordsLine t).map fun ws => { OperandRecord.empty with a := ws.1, k := ws.2 }
  | .encb => (parseBytesLine t).map fun bs => { OperandRecord.empty with blk := bs }
  | .decb => (parseBytesLine t).map fun bs => { OperandRecord.empty with blk := bs }
  | .pse => (parseStreamLine t).map fun x => { OperandRecord.empty with key := x.1, src := x.2.1, snk := x.2.2 }
  | .psd => (parseStreamLine t).map fun x => { OperandRecord.empty with key := x.1, src := x.2.1, snk := x.2.2 }

/-- The six commands. -/
def allInstrs : List Instr := [.keyx, .gf, .encb, .decb, .pse, .psd]

/-- The command a mnemonic names, whatever its case (R66). -/
def mnemonicInstr? (m : Text) : Option Instr :=
  allInstrs.find? fun i => i.mnemonic.toList.map Char.toLower == m.map Char.toLower

/-- One line of assembly to a command: the seven forms of R66, and no others (R68). `.word` emits the given word with
operand record "none": R66 does not say what a legal word emitted so runs with, and the model gives it `OperandRecord.empty`, that is A = K = 0,
empty KEY, BLK and SRC, and a host that serves every request (DESIGN CHOICE, log 23). -/
def assemble (line : Text) : Option Command :=
  let t := skipBlanks line
  let m := t.takeWhile (· != ' ')
  let rest := skipBlanks (t.dropWhile (· != ' '))
  if m.map Char.toLower = ".word".toList then
    match parseWord rest with
    | some (w, u) => if atEnd u then some { cmd := w, ops := OperandRecord.empty } else none
    | none => none
  else
    match mnemonicInstr? m with
    | some i => (parseOperands i rest).map fun ops => { cmd := encode i, ops := ops }
    | none => none

end Sys2Proof.Machine
end

