-- ==== Sys2Proof/Safety.lean ====
section
/-!
DEFINITION. What a sound state of the machine is, in the terms statements use: the invariant every step keeps, the states in which
no step stops, and the host duties a statement may assume by name.
-/

namespace Sys2Proof.Machine

/-- A legal status word: reserved bits 0, `CODE` 0..5, `IOSIDE` 0 unless `CODE` = 3 (R25). -/
def StatusLegal (w : Word) : Prop :=
  statusReserved w = 0 ∧ statusCode w ≤ 5 ∧ (statusCode w ≠ 3 → statusIoSide w = 0)

/-- A schedule that was derived from a key (R24, R77). -/
def IsKeySchedule (rk : Schedule) : Prop :=
  ∃ key : List Byte, key.length = 32 ∧ rk = keySchedule key

/-- Whether a command is a stream command. -/
def isStream : Instr → Bool
  | .keyx => false
  | .gf => false
  | .encb => false
  | .decb => false
  | .pse => true
  | .psd => true

/-- A stream past its key load: its key had 32 bytes and RK is that key's schedule (R101); the source has delivered exactly IN_POS
bytes, front to back (R42, R106); the sink holds exactly OUT_POS bytes (R43, R50); the whole source fits the bound (R113). -/
structure StreamUnderWay (s : State) : Prop where
  keyLength : s.host.ops.key.length = 32
  schedule : s.rk = keySchedule s.host.ops.key
  delivered : s.host.src.bytes = s.host.ops.src.bytes.drop s.fp.inPos
  inRange : s.fp.inPos ≤ s.host.ops.src.bytes.length
  accepted : s.host.snk.length = s.fp.outPos
  fits : ∀ n, s.par.maxStream = some n → s.host.ops.src.bytes.length ≤ n

/-- The invariant of the machine: STATUS is legal (R25); RND never exceeds 32 (R93); OUT_POS is a multiple of 8 (R32); IN_POS never
exceeds MAX_STREAM_BYTES (R113); a valid RK is the schedule of some key (R24); and a stream in flight stands as R101-R106 say. -/
structure Sound (s : State) : Prop where
  status : StatusLegal s.status
  rnd : s.be.rnd ≤ 32
  outPos : 8 ∣ s.fp.outPos
  inPos : ∀ n, s.par.maxStream = some n → s.fp.inPos ≤ n
  keys : s.rkValid = true → IsKeySchedule s.rk
  stream : ∀ i pos, s.eng = .busy i pos → isStream i = true → s.fp.phase ≠ .keyload → StreamUnderWay s

/-- Every request of a stream command is served (the premise R114 and R105 make). -/
def HostServes (ops : OperandRecord) : Prop :=
  (∀ a ∈ ops.src.answers, a = .ok) ∧ (∀ a ∈ ops.snk, a = .ok)

/-- The host answers each source and sink request, with success or failure (R142: "A model states it as a named premise"). -/
def HostAnswers (ops : OperandRecord) : Prop :=
  (∀ a ∈ ops.src.answers, a ≠ .silent) ∧ (∀ a ∈ ops.snk, a ≠ .silent)

/-- The source fits the bound (R113). -/
def StreamFits (p : Params) (ops : OperandRecord) : Prop :=
  ∀ n, p.maxStream = some n → ops.src.bytes.length ≤ n

/-- The stream command of a mode: PSE is Encrypt, PSD is Decrypt (R100). -/
def streamInstr : Mode → Instr
  | .encrypt => .pse
  | .decrypt => .psd

/-- The block command of a mode: ENCB is Encrypt, DECB is Decrypt (R59). -/
def blockInstr : Mode → Instr
  | .encrypt => .encb
  | .decrypt => .decb

/-- ceil(n / 8) (R102, R105). -/
def chunkCount (n : Nat) : Nat := (n + 7) / 8

/-- Chunk j of a source: the bytes `SRC[8j .. min(8j+8, N))` (R47). -/
def chunkAt (src : List Byte) (j : Nat) : List Byte := (src.drop (8 * j)).take 8

/-- `c ++ zeros(8 - |c|)` (R103). -/
def padded (c : List Byte) : List Byte := c ++ List.replicate (8 - c.length) 0

/-- Output block j of a stream: the transform of chunk j, padded, under the key's schedule (R105). -/
def outBlock (p : Params) (m : Mode) (key src : List Byte) (j : Nat) : Block :=
  cipherCore p m (keySchedule key) (blockOfBytes (padded (chunkAt src j)))

/-- The first k output blocks of a stream, "a raw concatenation" (R105). -/
def streamOutput (p : Params) (m : Mode) (key src : List Byte) (k : Nat) : List Byte :=
  (List.range k).flatMap fun j => (outBlock p m key src j).toList

/-- The requests of the first k chunks of a stream: each chunk read and its block written (R104). -/
def streamEvents (p : Params) (m : Mode) (key src : List Byte) (k : Nat) : List IoEvent :=
  (List.range k).flatMap fun j => [.read (chunkAt src j), .wrote (outBlock p m key src j)]

/-- Whether an event is an answered read request that delivered something or nothing. -/
def IoEvent.isRead : IoEvent → Bool
  | .read _ => true
  | .readFailed _ => false
  | .wrote _ => false
  | .writeFailed _ _ => false

/-- The 32-bit number of four bytes of a key from 4j on, the first the most significant (R44, R15). -/
def keyNumber (key : List Byte) (j : Nat) : Nat :=
  (((key.getD (4 * j) 0).toNat * 256 + (key.getD (4 * j + 1) 0).toNat) * 256 + (key.getD (4 * j + 2) 0).toNat) * 256 +
    (key.getD (4 * j + 3) 0).toNat

/-- The state with another operand record at the port. -/
def State.withOps (s : State) (ops : OperandRecord) : State := { s with host := { s.host with ops := ops } }

/-- The two records agree on every field the command reads (R56). -/
def SameRead (i : Instr) (x y : OperandRecord) : Prop :=
  match i with
  | .keyx => x.key = y.key
  | .gf => x.a = y.a ∧ x.k = y.k
  | .encb => x.blk = y.blk
  | .decb => x.blk = y.blk
  | .pse => x.key = y.key ∧ x.src = y.src ∧ x.snk = y.snk
  | .psd => x.key = y.key ∧ x.src = y.src ∧ x.snk = y.snk

/-- The next step is a step of the command i: it is the running command (R33), or the command the host issues to an idle core (R55). -/
def Runs (s : State) (i : Instr) : Prop :=
  (∃ pos, s.eng = .busy i pos) ∨
    (s.eng = .idle ∧ ∃ c rest, s.host.script = .issue c :: rest ∧ decode c.cmd = some i)

/-- A step answers a next state. -/
def Steps (s : State) : Prop := ∃ t, step s = .next t

end Sys2Proof.Machine
end

