-- ==== Sys2Proof/Certificates/Slice0/Obligations.lean ====
section
/-!
DEFINITION. The statements for the provers, from the numbered rules of spec/. Each docstring names the rule it formalises; a
statement that rests on a choice of the model names its log entry.
-/

open Sys2Proof Sys2Proof.Machine

/-! ## Encoding, decoding, text -/

/-- R61: the six words of the opcode map are legal, each on all 32 bits, and every other word is illegal. -/
def Obligations.OnlyTheSixWordsDecode : Prop :=
  decode 0x00000002 = some .keyx ∧ decode 0x00000004 = some .gf ∧ decode 0x00000006 = some .encb ∧
    decode 0x00000007 = some .decb ∧ decode 0x00000008 = some .pse ∧ decode 0x00000009 = some .psd ∧
    ∀ w : Word, w ∉ ([0x00000002, 0x00000004, 0x00000006, 0x00000007, 0x00000008, 0x00000009] : List Word) → decode w = none

/-- R58, R59, R60: every command's word decodes to it, and no other word does. -/
def Obligations.EncodeIsTheOnlyWord : Prop :=
  ∀ i : Instr, i.wellFormed = true ∧ decode (encode i) = some i ∧ ∀ w : Word, decode w = some i → w = encode i

/-- R63: a word is illegal exactly when FN = 0, FN is 5..127, M = 1 with FN 1 or 2, or a bit of 31:8 is set; presented to an idle core,
by either of the host's moves that present a command (issue, start), it raises IllegalCommand, which writes STATUS alone (the response and the operand record presented are the host's). That a started word's acceptance and answer are one
step, with ENG never BUSY, unlike a started KEYX or GF, is the model's choice (log 22; R141 gives its run one step). -/
def Obligations.IllegalWordsWriteOnlyStatus : Prop :=
  (∀ w : Word, decode w = none ↔
    ((fieldsOf w).fn = 0 ∨ 5 ≤ (fieldsOf w).fn ∨ ((fieldsOf w).m = 1 ∧ ((fieldsOf w).fn = 1 ∨ (fieldsOf w).fn = 2)) ∨
      (fieldsOf w).reserved ≠ 0)) ∧
  ∀ (s : State) (c : Command) (rest : List HostMove), s.par.wellFormed = true → s.eng = .idle →
    (s.host.script = .issue c :: rest ∨ s.host.script = .start c :: rest) → decode c.cmd = none →
    step s = .next { s with
      status := 4
      host := { s.host with
        script := rest, ops := c.ops
        resps := s.host.resps ++ [{ status := 4, result := .none, ioInfo := none }] } }

/-- R69: a legal word prints its mnemonic; any other prints as `.word 0x` and 8 hex digits and is marked illegal. With R66, R67 the
printed line of an illegal word assembles to that word; the empty operand record it gets, where R66 says "none", is the model's choice
(log 23). -/
def Obligations.DisassemblyReassembles : Prop :=
  (∀ (w : Word) (i : Instr), decode w = some i → disassemble w = { text := i.mnemonic.toList, illegal := false }) ∧
  ∀ w : Word, decode w = none →
    disassemble w = { text := ".word 0x".toList ++ hexDigits8 w, illegal := true } ∧
      assemble (disassemble w).text = some { cmd := w, ops := OperandRecord.empty }

/-! ## The step -/

/-- R55: an issued word that decodes to a command, on an idle core, is that command run on the presented operand record, and the
move is taken off the host's script. -/
def Obligations.StepRunsTheDecodedCommand : Prop :=
  ∀ (s : State) (c : Command) (rest : List HostMove) (i : Instr), s.par.wellFormed = true → s.eng = .idle →
    s.host.script = .issue c :: rest → decode c.cmd = some i →
    step s = exec i { s with host := { s.host with script := rest, ops := c.ops } }

/-- A word placed as the next command is decoded and run, with the operand record at the port and the rest of the script kept. -/
def Obligations.PlacedWordIsRunNext : Prop :=
  ∀ (s : State) (w : Nat) (i : Instr), s.par.wellFormed = true → w < 2 ^ 32 → decodeTableWord 32 w = some i →
    step (s.withFetchWord 32 w) = exec i { s with eng := .idle }

/-- R33, R55: a started command makes ENG BUSY and changes no register but FP_PHASE, which a stream command puts at KEYLOAD. That the
acceptance is a step of its own is the model's choice (log 1, log 22), and so is the clause that the live source and sink (`host.src`,
`host.snk`) stay as the stream before left them until KEYLOAD, where R43 has the sink empty when a stream command starts (log 28). -/
def Obligations.StartedCommandMakesTheCoreBusy : Prop :=
  ∀ (s : State) (c : Command) (rest : List HostMove) (i : Instr), s.par.wellFormed = true → s.eng = .idle →
    s.host.script = .start c :: rest → decode c.cmd = some i →
    step s = .next { s with
      eng := .busy i .check
      fp := { s.fp with phase := if isStream i then .keyload else s.fp.phase }
      host := { s.host with script := rest, ops := c.ops } }

/-- R135: a command presented while ENG = BUSY is held: the step is a micro-step of the running command, and the held command
and the operand record of the running one stay as they are. It holds whatever the script
lists behind the held move: that a reset, port read or tick listed there waits is the model's choice (log 30). -/
def Obligations.BusyCoreHoldsCommands : Prop :=
  ∀ (s t : State) (c : Command) (rest : List HostMove) (i : Instr) (pos : BlockPos), s.par.wellFormed = true →
    s.eng = .busy i pos → (s.host.script = .issue c :: rest ∨ s.host.script = .start c :: rest) →
    step s = microStep s ∧ (step s = .next t → t.host.script = s.host.script ∧ t.host.ops = s.host.ops)

/-- R132, R129: with no move of the host to come, an idle core waits and keeps all its state. That it steps to itself is the
model's form of waiting (log 20). -/
def Obligations.IdleCoreWaits : Prop :=
  ∀ s : State, s.par.wellFormed = true → s.eng = .idle → s.host.script = [] → step s = .next s

/-- R29, R37: a read of STATUS or ENG shows the register; a read of RES or BLKOUT shows it once it holds a value and faults before; a
read changes nothing in the core. That a fault is the form "has no meaning" takes is R37's own words. Which writes make
RES and BLKOUT hold a value is log 7. That a read is taken at once, in a step of its own, also while ENG = BUSY, is the model's choice
(log 18). -/
def Obligations.PortReadsShowRegisters : Prop :=
  ∀ (s : State) (p : Port) (rest : List HostMove), s.par.wellFormed = true → s.host.script = .read p :: rest →
    ∀ v : PortValue,
      (v = .status s.status ∧ p = .status ∨ v = .eng s.eng.isIdle ∧ p = .eng ∨
        v = .res s.res ∧ p = .res ∧ s.resHeld = true ∨ v = .blkout s.blkout ∧ p = .blkout ∧ s.blkHeld = true →
          step s = .next { s with host := { s.host with script := rest, seen := s.host.seen ++ [v] } }) ∧
      (p = .res ∧ s.resHeld = false ∨ p = .blkout ∧ s.blkHeld = false → step s = .fault (.readWithoutValue p))

/-- R74, R39: with an S-box table that has a row that is no permutation nothing runs; a ROM index given as integers is refused exactly
when its row or column is out of range. That the step refuses, and not exec, is the model's reading (log 21). -/
def Obligations.BadTableAndBadIndexRefused : Prop :=
  (∀ (s : State) (i : Fin 8) (v : Nibble), (∀ c : Nibble, romRead s.par.sbox i c ≠ v) → step s = .refused .invalidTable) ∧
  ∀ (t : SBox) (row col : Nat), romRead? t row col = none ↔ 8 ≤ row ∨ 16 ≤ col

/-! ## Reset -/

/-- R36: the machine after reset: RK_VALID 0, STATUS 0, ENG IDLE, the ROM the default table; RES and BLKOUT hold no value. -/
def Obligations.ResetStateAsListed : Prop :=
  State.reset.rkValid = false ∧ State.reset.status = 0 ∧ State.reset.eng = .idle ∧ State.reset.par.sbox = Config.sboxTable ∧
    State.reset.par.wellFormed = true ∧ State.reset.resHeld = false ∧ State.reset.blkHeld = false

/-- R130, R123: reset is taken whatever runs, in place of a micro-step: RK_VALID 0, STATUS 0, ENG IDLE, RES and BLKOUT without a value,
the ROM unchanged, no response sent, and the host's streams as they are. -/
def Obligations.ResetIsTakenWhateverRuns : Prop :=
  ∀ (s : State) (rest : List HostMove), s.par.wellFormed = true → s.host.script = .reset :: rest →
    ∃ t, step s = .next t ∧ t.rkValid = false ∧ t.status = 0 ∧ t.eng = .idle ∧ t.resHeld = false ∧ t.blkHeld = false ∧
      t.par = s.par ∧ t.host = { s.host with script := rest }

/-- R131: a reset in the middle of a stream leaves every accepted block in the sink, complete, and what the source delivered consumed;
no response is sent, and a block command after it raises NoRoundKeys. That reset keeps the host's side is log 24. -/
def Obligations.ResetInMidStreamKeepsAcceptedBlocks : Prop :=
  ∀ (s : State) (i : Instr) (pos : BlockPos) (rest : List HostMove), Sound s → s.par.wellFormed = true → s.eng = .busy i pos →
    isStream i = true → s.fp.phase ≠ .keyload → s.host.script = .reset :: rest →
    ∃ t, step s = .next t ∧ t.host.snk = s.host.snk ∧ 8 ∣ t.host.snk.length ∧ t.host.snk.length = s.fp.outPos ∧
      t.host.src.bytes = s.host.ops.src.bytes.drop s.fp.inPos ∧ t.host.resps = s.host.resps ∧
      ∀ (m : Mode) (c : Command), c.ops.blk.length = 8 → ∃ u, exec (blockInstr m) (t.present c) = .next u ∧ u.status = 5

/-! ## S-box ROM, G and GF -/

/-- R72: output lane i is the ROM's row i at input lane i, and nothing else. -/
def Obligations.SubstWorksLaneByLane : Prop :=
  ∀ (t : SBox) (x : Word) (i : Fin 8), nibble (subst t x) i = romRead t i (nibble x i)

/-- R73: with eight permutations (R74), Subst is a bijection on 32-bit words. -/
def Obligations.SubstIsBijective : Prop :=
  ∀ t : SBox, t.wellFormed = true → Function.Bijective (subst t)

/-- R86: for a fixed k, a -> G(a, k) is a bijection, under either order of the steps. -/
def Obligations.RoundFunctionIsBijective : Prop :=
  ∀ (p : Params) (k : Word), p.wellFormed = true → Function.Bijective (fun a => roundG p a k)

/-- R87: G depends only on the sum of its operands modulo 2^32. -/
def Obligations.RoundFunctionDependsOnTheSum : Prop :=
  ∀ (p : Params) (a k a' k' : Word), (a.toNat + k.toNat) % 2 ^ 32 = (a'.toNat + k'.toNat) % 2 ^ 32 →
    roundG p a k = roundG p a' k'

/-- R85, R84: the word 0x00000004 and no other is GF, and GF puts G(A, K) into RES, whatever RK holds, and STATUS 0; nothing else of
the core changes. -/
def Obligations.GfWritesTheRoundFunction : Prop :=
  (∀ w : Word, decode w = some .gf ↔ w = 0x00000004) ∧
  ∀ s : State, ∃ v : Word,
    (s.par.gOrder = .rotThenSub → v = subst s.par.sbox (rotl32 (s.host.ops.a + s.host.ops.k) 11)) ∧
    (s.par.gOrder = .subThenRot → v = rotl32 (subst s.par.sbox (s.host.ops.a + s.host.ops.k)) 11) ∧
    exec .gf s = .next { s with
      res := v, resHeld := true, status := 0, eng := .idle
      host := { s.host with resps := s.host.resps ++ [{ status := 0, result := .res v, ioInfo := none }] } }

/-- R75: the ROM seen through GF: with ROT_THEN_SUB, A = rotl32(x, 21) and K = 0 give RES = Subst(x), whose lane i is the entry
(i, lane i of x); with SUB_THEN_ROT, A = x and K = 0 give rotl32(Subst(x), 11). -/
def Obligations.RomIsObservableThroughGf : Prop :=
  ∀ (s : State) (x : Word),
    (s.par.gOrder = .rotThenSub → s.host.ops.a = rotl32 x 21 → s.host.ops.k = 0 →
      ∃ t, exec .gf s = .next t ∧ t.res = subst s.par.sbox x ∧
        ∀ i : Fin 8, nibble t.res i = romRead s.par.sbox i (nibble x i)) ∧
    (s.par.gOrder = .subThenRot → s.host.ops.a = x → s.host.ops.k = 0 →
      ∃ t, exec .gf s = .next t ∧ t.res = rotl32 (subst s.par.sbox x) 11)

/-! ## Key schedule and KEYX -/

/-- R78, R80: KEYX with 32 bytes loads the key's schedule, sets RK_VALID, and answers with RKOUT; with any other length it writes
STATUS = 1 and nothing else of the core. -/
def Obligations.KeyxLoadsOrRejects : Prop :=
  ∀ s : State,
    (s.host.ops.key.length = 32 →
      exec .keyx s = .next { s with
        rk := keySchedule s.host.ops.key, rkValid := true, status := 0, eng := .idle
        host := { s.host with
          resps := s.host.resps ++ [{ status := 0, result := .rkout (keySchedule s.host.ops.key), ioInfo := none }] } }) ∧
    (s.host.ops.key.length ≠ 32 →
      exec .keyx s = .next { s with
        status := 1, eng := .idle
        host := { s.host with resps := s.host.resps ++ [{ status := 1, result := .none, ioInfo := none }] } })

/-- R79, R35, R44: after a successful KEYX, RK is K0..K7 three times and then K7..K0, each Kj the big-endian number of key bytes
4j..4j+3. -/
def Obligations.ScheduleAfterKeyx : Prop :=
  ∀ s : State, s.host.ops.key.length = 32 → ∃ t, exec .keyx s = .next t ∧
    ∀ (j : Nat) (h : j < 8),
      (t.rk[j]'(by omega)).toNat = keyNumber s.host.ops.key j ∧ (t.rk[8 + j]'(by omega)).toNat = keyNumber s.host.ops.key j ∧
      (t.rk[16 + j]'(by omega)).toNat = keyNumber s.host.ops.key j ∧
      (t.rk[31 - j]'(by omega)).toNat = keyNumber s.host.ops.key j

/-- R81: read in the order a decrypt uses it, the schedule is K0..K7, K7..K0, K7..K0, K7..K0. -/
def Obligations.DecryptReadsTheScheduleBackwards : Prop :=
  ∀ key : List Byte, key.length = 32 →
    (keySchedule key).toList.reverse =
      (List.range 8).map (keyWord key) ++ (List.range 8).reverse.map (keyWord key) ++
        (List.range 8).reverse.map (keyWord key) ++ (List.range 8).reverse.map (keyWord key)

/-! ## Block engine, ENCB and DECB -/

/-- R94, R95: with an 8-byte block and a schedule loaded, ENCB and DECB put the transform of BLK under RK into BLKOUT, STATUS 0; only
the engine's working registers change beside. -/
def Obligations.BlockCommandsTransform : Prop :=
  ∀ (m : Mode) (s : State), s.host.ops.blk.length = 8 → s.rkValid = true →
    ∃ e : BlockEngine, ∃ out : Block,
      out = (match m with
        | .encrypt => encryptCore s.par s.rk (blockOfBytes s.host.ops.blk)
        | .decrypt => decryptCore s.par s.rk (blockOfBytes s.host.ops.blk)) ∧
      exec (blockInstr m) s = .next { s with
        be := e, blkout := out, blkHeld := true, status := 0, eng := .idle
        host := { s.host with resps := s.host.resps ++ [{ status := 0, result := .blkout out, ioInfo := none }] } }

/-- R94, R95, R116: a block of another length gives InvalidBlockLength, whether or not a schedule is loaded; 8 bytes without a
schedule give NoRoundKeys; either way only STATUS changes in the core. -/
def Obligations.BlockCommandErrors : Prop :=
  ∀ (m : Mode) (s : State),
    (s.host.ops.blk.length ≠ 8 →
      exec (blockInstr m) s = .next { s with
        status := 2, eng := .idle
        host := { s.host with resps := s.host.resps ++ [{ status := 2, result := .none, ioInfo := none }] } }) ∧
    (s.host.ops.blk.length = 8 → s.rkValid = false →
      exec (blockInstr m) s = .next { s with
        status := 5, eng := .idle
        host := { s.host with resps := s.host.resps ++ [{ status := 5, result := .none, ioInfo := none }] } })

/-- R93: load, 32 round micro-steps and emit give EncryptCore or DecryptCore, and after n rounds RND is n, never over 32. -/
def Obligations.MicroStepsComputeTheTransform : Prop :=
  ∀ (p : Params) (rk : Schedule) (b : Block),
    engineEmit (engineRounds p rk 32 (engineLoad b .encrypt)) = encryptCore p rk b ∧
    engineEmit (engineRounds p rk 32 (engineLoad b .decrypt)) = decryptCore p rk b ∧
    ∀ (n : Nat) (m : Mode), n ≤ 32 →
      (engineRounds p rk n (engineLoad b m)).rnd.toNat = n ∧ (engineRounds p rk n (engineLoad b m)).dir = m

/-- R96, the round-trip law: for every schedule, every table, both orders of G, and any function in the place of G, decrypting what was
encrypted gives the block back, and the other way round. -/
def Obligations.DecryptUndoesEncrypt : Prop :=
  (∀ (p : Params) (rk : Schedule) (b : Block),
    decryptCore p rk (encryptCore p rk b) = b ∧ encryptCore p rk (decryptCore p rk b) = b) ∧
  (∀ (g : Word → Word → Word) (rk : Schedule) (b : Block),
    blockTransform g rk.toList.reverse (blockTransform g rk.toList b) = b ∧
    blockTransform g rk.toList (blockTransform g rk.toList.reverse b) = b) ∧
  ∀ (p : Params) (key : List Byte) (b : Block), key.length = 32 →
    decryptCore p (keySchedule key) (encryptCore p (keySchedule key) b) = b

/-- R96 on the machine: a DECB of what an ENCB left in BLKOUT, with no command between, puts the block back into BLKOUT; and the other
way round. -/
def Obligations.BlockCommandsUndoEachOther : Prop :=
  ∀ (m : Mode) (s : State) (b : Block), s.rkValid = true → s.host.ops.blk = b.toList →
    ∃ t, exec (blockInstr m) s = .next t ∧
      ∀ (m' : Mode) (c : Command), m' ≠ m → c.ops.blk = t.blkout.toList →
        ∃ u, exec (blockInstr m') (t.present c) = .next u ∧ u.blkout = b ∧ u.status = 0

/-- R97: a schedule that reads the same forwards and backwards makes decrypt and encrypt the same function, and a key with K7 = K0,
K6 = K1, K5 = K2, K4 = K3 has such a schedule. -/
def Obligations.PalindromicScheduleMakesBothTheSame : Prop :=
  (∀ (p : Params) (rk : Schedule) (b : Block), (∀ (i : Nat) (h : i < 32), rk[i] = rk[31 - i]'(by omega)) →
    decryptCore p rk b = encryptCore p rk b) ∧
  ∀ key : List Byte, (∀ j, j < 4 → keyWord key (7 - j) = keyWord key j) →
    ∀ (i : Nat) (h : i < 32), (keySchedule key)[i] = (keySchedule key)[31 - i]'(by omega)

/-- R98: 31 swapping rounds and one that does not swap give the same 8 bytes. -/
def Obligations.LastRoundWithoutSwap : Prop :=
  ∀ (p : Params) (rk : Schedule) (b : Block),
    (∀ l r : Word, feistelRounds (roundG p) (rk.toList.take 31) (leftHalf b, rightHalf b) = (l, r) →
      encryptCore p rk b = blockOfHalves (l ^^^ roundG p r rk[31]) r) ∧
    (∀ l r : Word, feistelRounds (roundG p) (rk.toList.reverse.take 31) (leftHalf b, rightHalf b) = (l, r) →
      decryptCore p rk b = blockOfHalves (l ^^^ roundG p r rk[0]) r)

/-! ## File block processor, PSE and PSD -/

/-- R105, R100: a stream whose every request is served completes: the sink holds exactly ceil(N/8) * 8 bytes, block j the transform of
chunk j padded; STATUS 0, RK_VALID 0, one response without a result; RES and BLKOUT are not written. -/
def Obligations.StreamWritesEveryBlock : Prop :=
  ∀ (m : Mode) (s : State), s.host.ops.key.length = 32 → StreamFits s.par s.host.ops → HostServes s.host.ops →
    ∃ t, exec (streamInstr m) s = .next t ∧
      t.host.snk = streamOutput s.par m s.host.ops.key s.host.ops.src.bytes (chunkCount s.host.ops.src.bytes.length) ∧
      t.host.snk.length = chunkCount s.host.ops.src.bytes.length * 8 ∧
      t.status = 0 ∧ t.rkValid = false ∧ t.eng = .idle ∧ t.rk = keySchedule s.host.ops.key ∧
      t.host.resps = s.host.resps ++ [{ status := 0, result := .none, ioInfo := none }] ∧
      t.fp.inPos = s.host.ops.src.bytes.length ∧ t.fp.outPos = t.host.snk.length ∧ t.host.src.bytes = [] ∧
      t.res = s.res ∧ t.blkout = s.blkout

/-- R105: a stream command that succeeds on a source of N bytes leaves exactly ceil(N/8) * 8 bytes in the sink (which it found empty),
block j the transform of chunk j padded, whatever the host's answers were; N = 0 gives an empty output. -/
def Obligations.SuccessfulStreamsOutput : Prop :=
  ∀ (m : Mode) (s t : State), exec (streamInstr m) s = .next t → t.eng = .idle → statusCode t.status = 0 →
    t.host.snk = streamOutput s.par m s.host.ops.key s.host.ops.src.bytes (chunkCount s.host.ops.src.bytes.length) ∧
    t.host.snk.length = chunkCount s.host.ops.src.bytes.length * 8 ∧
    (s.host.ops.src.bytes = [] → t.host.snk = [])

/-- R102, R104, R50: its requests are each chunk read and its block written, in order, and one last read that delivers nothing:
ceil(N/8) + 1 reads, each but the last of 1 to 8 bytes. -/
def Obligations.StreamRequestsInOrder : Prop :=
  ∀ (m : Mode) (s : State), s.host.ops.key.length = 32 → StreamFits s.par s.host.ops → HostServes s.host.ops →
    ∃ t, exec (streamInstr m) s = .next t ∧
      t.host.events =
        streamEvents s.par m s.host.ops.key s.host.ops.src.bytes (chunkCount s.host.ops.src.bytes.length) ++ [.read []] ∧
      (t.host.events.filter IoEvent.isRead).length = chunkCount s.host.ops.src.bytes.length + 1 ∧
      ∀ j, j < chunkCount s.host.ops.src.bytes.length →
        1 ≤ (chunkAt s.host.ops.src.bytes j).length ∧ (chunkAt s.host.ops.src.bytes j).length ≤ 8

/-- R101: a key of another length ends a stream command with InvalidKeyLength before any request: the source and the (empty) sink
are untouched, RK keeps its bits and RK_VALID becomes 0. That the sink
shown is empty although the key check fails is the model's choice (log 12). -/
def Obligations.StreamRejectsKeyBeforeAnyRequest : Prop :=
  ∀ (m : Mode) (s : State), s.host.ops.key.length ≠ 32 →
    ∃ t, exec (streamInstr m) s = .next t ∧ t.status = 1 ∧ t.rkValid = false ∧ t.rk = s.rk ∧ t.eng = .idle ∧
      t.host.events = [] ∧ t.host.src = s.host.ops.src ∧ t.host.snk = [] ∧ t.res = s.res ∧ t.blkout = s.blkout ∧
      t.host.resps = s.host.resps ++ [{ status := 1, result := .none, ioInfo := none }]

/-- R107: when SrcRead fails at chunk j, the command ends with IOFailure, IOSIDE 0, the host's value passed through; no request
follows; the sink holds output blocks 0..j-1, complete; RK_VALID becomes 0. -/
def Obligations.ReadFailureEndsTheStream : Prop :=
  ∀ (m : Mode) (s : State) (j : Nat) (info : IoInfo) (more : List Answer), s.host.ops.key.length = 32 →
    StreamFits s.par s.host.ops → (∀ a ∈ s.host.ops.snk.take j, a = .ok) → j ≤ chunkCount s.host.ops.src.bytes.length →
    s.host.ops.src.answers = List.replicate j .ok ++ .fail info :: more →
    ∃ t, exec (streamInstr m) s = .next t ∧ t.status = 3 ∧ t.rkValid = false ∧ t.eng = .idle ∧
      t.host.resps = s.host.resps ++ [{ status := 3, result := .none, ioInfo := some info }] ∧
      t.host.snk = streamOutput s.par m s.host.ops.key s.host.ops.src.bytes j ∧
      t.host.events = streamEvents s.par m s.host.ops.key s.host.ops.src.bytes j ++ [.readFailed info]

/-- R108: when SinkWrite fails for output block j, the command ends with IOFailure, IOSIDE 1, the host's value passed through; no
request follows; the sink holds blocks 0..j-1 and some prefix of block j, of a length no one specifies; RK_VALID becomes 0. -/
def Obligations.WriteFailureEndsTheStream : Prop :=
  ∀ (m : Mode) (s : State) (j : Nat) (info : IoInfo) (more : List Answer), s.host.ops.key.length = 32 →
    StreamFits s.par s.host.ops → (∀ a ∈ s.host.ops.src.answers.take (j + 1), a = .ok) →
    j < chunkCount s.host.ops.src.bytes.length →
    s.host.ops.snk = List.replicate j .ok ++ .fail info :: more →
    ∃ t, exec (streamInstr m) s = .next t ∧ t.status = 11 ∧ t.rkValid = false ∧ t.eng = .idle ∧
      t.host.resps = s.host.resps ++ [{ status := 11, result := .none, ioInfo := some info }] ∧
      (∃ n, n ≤ 8 ∧ t.host.snk = streamOutput s.par m s.host.ops.key s.host.ops.src.bytes j ++
        (outBlock s.par m s.host.ops.key s.host.ops.src.bytes j).toList.take n) ∧
      t.host.events = streamEvents s.par m s.host.ops.key s.host.ops.src.bytes j ++
        [.read (chunkAt s.host.ops.src.bytes j), .writeFailed (outBlock s.par m s.host.ops.key s.host.ops.src.bytes j) info]

/-- R109, R136: every way a stream command ends sets RK_VALID to 0, and a block command after it raises NoRoundKeys. -/
def Obligations.StreamDiscardsItsSchedule : Prop :=
  ∀ (m : Mode) (s t : State), exec (streamInstr m) s = .next t → t.eng = .idle →
    t.rkValid = false ∧ (t.rk = s.rk ∨ t.rk = keySchedule s.host.ops.key) ∧
      ∀ (m' : Mode) (c : Command), c.ops.blk.length = 8 →
        ∃ u, exec (blockInstr m') (t.present c) = .next u ∧ u.status = 5 ∧ u.blkout = t.blkout

/-- R110: two sources of equal length that differ only within chunk j give outputs that agree in every block but block j; and equal
8-byte plaintext blocks of one source give equal output blocks. -/
def Obligations.BlocksAreIndependent : Prop :=
  ∀ (m : Mode) (s : State) (other : List Byte) (j : Nat), s.host.ops.key.length = 32 → StreamFits s.par s.host.ops →
    HostServes s.host.ops → other.length = s.host.ops.src.bytes.length →
    (∀ i, i < 8 * j ∨ 8 * j + 8 ≤ i → other[i]? = s.host.ops.src.bytes[i]?) →
    ∃ t u, exec (streamInstr m) s = .next t ∧
      exec (streamInstr m)
        (s.withOps { s.host.ops with src := { bytes := other, answers := s.host.ops.src.answers } }) = .next u ∧
      u.host.snk.length = t.host.snk.length ∧ (∀ k, k ≠ j → chunkAt u.host.snk k = chunkAt t.host.snk k) ∧
      ∀ k l, 8 * k + 8 ≤ s.host.ops.src.bytes.length → 8 * l + 8 ≤ s.host.ops.src.bytes.length →
        chunkAt s.host.ops.src.bytes k = chunkAt s.host.ops.src.bytes l → chunkAt t.host.snk k = chunkAt t.host.snk l

/-- R111: a 5-byte input gives one block, the encryption of the input and 3 zero bytes; a 0-byte input gives no output; an 8-byte
input gives one block and no padding. -/
def Obligations.PaddingIsDeterministic : Prop :=
  ∀ s : State, s.host.ops.key.length = 32 → StreamFits s.par s.host.ops → HostServes s.host.ops →
    ∃ t, exec .pse s = .next t ∧
      (s.host.ops.src.bytes.length = 5 →
        t.host.snk = (encryptCore s.par (keySchedule s.host.ops.key) (blockOfBytes (s.host.ops.src.bytes ++ [0, 0, 0]))).toList) ∧
      (s.host.ops.src.bytes.length = 0 → t.host.snk = []) ∧
      (s.host.ops.src.bytes.length = 8 →
        t.host.snk = (encryptCore s.par (keySchedule s.host.ops.key) (blockOfBytes s.host.ops.src.bytes)).toList)

/-- R112: PSD of the output of PSE under the same key gives back the source followed by (8 - N mod 8) mod 8 zero bytes. -/
def Obligations.PaddingSurvivesTheRoundTrip : Prop :=
  ∀ (s t : State) (c : Command), s.host.ops.key.length = 32 → StreamFits s.par s.host.ops → HostServes s.host.ops →
    exec .pse s = .next t → c.ops.key = s.host.ops.key → c.ops.src.bytes = t.host.snk → StreamFits s.par c.ops → HostServes c.ops →
    ∃ u, exec .psd (t.present c) = .next u ∧ u.status = 0 ∧
      u.host.snk = s.host.ops.src.bytes ++ List.replicate ((8 - s.host.ops.src.bytes.length % 8) % 8) 0

/-- R113: a stream with a source longer than a finite MAX_STREAM_BYTES is refused once its key has passed the length check (that the
key check comes first is the model's choice, log 5). -/
def Obligations.LongStreamIsRefused : Prop :=
  ∀ (m : Mode) (s : State) (n : Nat), s.par.maxStream = some n → n < s.host.ops.src.bytes.length →
    s.host.ops.key.length = 32 → exec (streamInstr m) s = .refused .streamTooLong

/-- R141: when the host never answers a request, the command waits, BUSY, and no micro-step of it ever changes anything. Whichever request
it is, read j (the one that finds the source exhausted among them) or write j: the command stands in READ or WRITE, no response is
sent, STATUS is as before, and the sink holds output blocks 0..j-1 and nothing else. That exec answers the waiting state is the
model's choice (log 9). -/
def Obligations.UnansweredRequestHangsTheCommand : Prop :=
  (∀ (m : Mode) (s t : State), exec (streamInstr m) s = .next t → t.eng ≠ .idle → microStep t = .next t) ∧
  (∀ (m : Mode) (s : State) (j : Nat) (more : List Answer), s.host.ops.key.length = 32 → StreamFits s.par s.host.ops →
    (∀ a ∈ s.host.ops.snk.take j, a = .ok) → j ≤ chunkCount s.host.ops.src.bytes.length →
    s.host.ops.src.answers = List.replicate j .ok ++ .silent :: more →
    ∃ t, exec (streamInstr m) s = .next t ∧ t.eng = .busy (streamInstr m) .load ∧ t.fp.phase = .read ∧
      t.host.resps = s.host.resps ∧ t.status = s.status ∧
      t.host.snk = streamOutput s.par m s.host.ops.key s.host.ops.src.bytes j ∧
      t.host.events = streamEvents s.par m s.host.ops.key s.host.ops.src.bytes j) ∧
  ∀ (m : Mode) (s : State) (j : Nat) (more : List Answer), s.host.ops.key.length = 32 → StreamFits s.par s.host.ops →
    (∀ a ∈ s.host.ops.src.answers.take (j + 1), a = .ok) → j < chunkCount s.host.ops.src.bytes.length →
    s.host.ops.snk = List.replicate j .ok ++ .silent :: more →
    ∃ t, exec (streamInstr m) s = .next t ∧ t.eng = .busy (streamInstr m) .load ∧ t.fp.phase = .write ∧
      t.host.resps = s.host.resps ∧ t.status = s.status ∧
      t.host.snk = streamOutput s.par m s.host.ops.key s.host.ops.src.bytes j ∧
      t.host.events = streamEvents s.par m s.host.ops.key s.host.ops.src.bytes j ++ [.read (chunkAt s.host.ops.src.bytes j)]

/-- R104: the phases of a running stream command go from each to the next as the table says, or stay while the host does not answer or
the block engine is at work, or the command ends. Waiting is log 9; the cut of XFORM into micro-steps is log 22. -/
def Obligations.StreamPhasesFollowTheTable : Prop :=
  ∀ (s t : State) (m : Mode) (pos : BlockPos), s.eng = .busy (streamInstr m) pos → microStep s = .next t →
    (s.fp.phase = .keyload → t.eng = .idle ∨ t.fp.phase = .read) ∧
    (s.fp.phase = .read → t.eng = .idle ∨ t = s ∨ t.fp.phase = .done ∧ t.fp.inPos = s.fp.inPos ∨
      t.fp.phase = .xform ∧ s.fp.inPos < t.fp.inPos ∧ t.fp.inPos ≤ s.fp.inPos + 8) ∧
    (s.fp.phase = .xform → t.eng ≠ .idle ∧ (t.fp.phase = .xform ∨ t.fp.phase = .write)) ∧
    (s.fp.phase = .write → t.eng = .idle ∨ t = s ∨ t.fp.phase = .read ∧ t.fp.outPos = s.fp.outPos + 8) ∧
    (s.fp.phase = .done → t.eng = .idle ∧ t.status = 0 ∧ t.rkValid = false)

/-! ## The whole machine -/

/-- R26, R27, R23: a command that answers leaves RES alone unless it is GF, BLKOUT alone unless it is ENCB or DECB, both alone when it
reports an error, and RK and RK_VALID alone unless it is KEYX, PSE or PSD; RK is then written whole, with the key's schedule. -/
def Obligations.RegistersHaveTheirWriters : Prop :=
  ∀ (i : Instr) (s t : State), exec i s = .next t →
    (i ≠ .gf → t.res = s.res ∧ t.resHeld = s.resHeld) ∧
    (i ≠ .encb → i ≠ .decb → t.blkout = s.blkout ∧ t.blkHeld = s.blkHeld) ∧
    (t.eng = .idle → statusCode t.status ≠ 0 →
      t.res = s.res ∧ t.resHeld = s.resHeld ∧ t.blkout = s.blkout ∧ t.blkHeld = s.blkHeld) ∧
    (i ≠ .keyx → isStream i = false → t.rk = s.rk ∧ t.rkValid = s.rkValid) ∧
    (t.rk = s.rk ∨ t.rk = keySchedule s.host.ops.key)

/-- R20, R23-R27, R129, R130: in any step but a reset, RES changes only by a GF that ends with success, BLKOUT only by an ENCB or DECB that
ends with success, RK only by KEYX, PSE or PSD and then as the whole schedule of the key at the port, RK_VALID only by those three,
and STATUS only where a command completes: ENG is then IDLE and one response that carries the new STATUS has been sent. -/
def Obligations.RegistersChangeOnlyInTheirCommands : Prop :=
  ∀ s t : State, step s = .next t → (∀ rest, s.host.script ≠ .reset :: rest) →
    (t.res = s.res ∧ t.resHeld = s.resHeld ∨ Runs s .gf ∧ t.eng = .idle ∧ t.status = 0 ∧ t.resHeld = true) ∧
    (t.blkout = s.blkout ∧ t.blkHeld = s.blkHeld ∨
      (Runs s .encb ∨ Runs s .decb) ∧ t.eng = .idle ∧ t.status = 0 ∧ t.blkHeld = true) ∧
    (t.rk = s.rk ∨ (Runs s .keyx ∨ Runs s .pse ∨ Runs s .psd) ∧ t.rk = keySchedule t.host.ops.key) ∧
    (t.rkValid = s.rkValid ∨ Runs s .keyx ∧ t.rkValid = true ∨ (Runs s .pse ∨ Runs s .psd) ∧ t.rkValid = false) ∧
    (t.status = s.status ∧ t.host.resps = s.host.resps ∨
      t.eng = .idle ∧ ∃ r, t.host.resps = s.host.resps ++ [r] ∧ r.status = t.status)

/-- What a stream command leaves alone, however it goes: the parameters, RES, BLKOUT, and of the host's side its moves, the operand
record, the port values it has seen, and the responses it already had. -/
def Obligations.StreamCommandFrame : Prop :=
  ∀ (m : Mode) (s t : State), exec (streamInstr m) s = .next t →
    t.par = s.par ∧ t.res = s.res ∧ t.resHeld = s.resHeld ∧ t.blkout = s.blkout ∧ t.blkHeld = s.blkHeld ∧
      t.host.script = s.host.script ∧ t.host.ops = s.host.ops ∧ t.host.seen = s.host.seen ∧
      s.host.resps <+: t.host.resps

/-- R56: a command ignores every operand field it does not read: with another record that agrees on the fields it reads, it does
the same. -/
def Obligations.UnreadOperandsHaveNoEffect : Prop :=
  ∀ (i : Instr) (s t : State) (ops : OperandRecord), SameRead i s.host.ops ops → exec i s = .next t →
    exec i (s.withOps ops) = .next (t.withOps ops)

/-- R115: which status codes each command can end with, and IOSIDE is 0 unless the code is 3. -/
def Obligations.StatusCodesOfEachCommand : Prop :=
  ∀ (i : Instr) (s t : State), exec i s = .next t → t.eng = .idle →
    StatusLegal t.status ∧
    (match i with
      | .keyx => statusCode t.status = 0 ∨ statusCode t.status = 1
      | .gf => statusCode t.status = 0
      | .encb | .decb => statusCode t.status = 0 ∨ statusCode t.status = 2 ∨ statusCode t.status = 5
      | .pse | .psd => statusCode t.status = 0 ∨ statusCode t.status = 1 ∨ statusCode t.status = 3)

/-- R116: the order of errors: an illegal word before any operand check, whatever the operands; a length before NoRoundKeys; the
key's length before any failure of the streams. -/
def Obligations.ErrorsInTheirOrder : Prop :=
  (∀ (s : State) (c : Command) (rest : List HostMove), s.par.wellFormed = true → s.eng = .idle →
    s.host.script = .issue c :: rest → decode c.cmd = none → ∃ t, step s = .next t ∧ statusCode t.status = 4) ∧
  (∀ (m : Mode) (s : State), s.host.ops.blk.length ≠ 8 → ∃ t, exec (blockInstr m) s = .next t ∧ statusCode t.status = 2) ∧
  (∀ (m : Mode) (s : State), s.host.ops.blk.length = 8 → s.rkValid = false →
    ∃ t, exec (blockInstr m) s = .next t ∧ statusCode t.status = 5) ∧
  (∀ s : State, s.host.ops.key.length ≠ 32 → ∃ t, exec .keyx s = .next t ∧ statusCode t.status = 1) ∧
  ∀ (m : Mode) (s : State), s.host.ops.key.length ≠ 32 → ∃ t, exec (streamInstr m) s = .next t ∧ statusCode t.status = 1

/-- R55, R57, R119, R141 under R142's premise: when the host answers each request (and the source fits the bound), every command ends:
ENG is IDLE, exactly one response was sent, it carries STATUS, it carries IOINFO exactly for IOFailure, and it carries a
result only on success. -/
def Obligations.EveryCommandAnswersOnce : Prop :=
  ∀ (i : Instr) (s : State), HostAnswers s.host.ops → StreamFits s.par s.host.ops →
    ∃ t r, exec i s = .next t ∧ t.eng = .idle ∧ t.host.resps = s.host.resps ++ [r] ∧ r.status = t.status ∧
      (r.ioInfo.isSome = true ↔ statusCode t.status = 3) ∧ (r.result ≠ .none → statusCode t.status = 0)

/-- R93, R104, R141: a command taken micro-step by micro-step from its acceptance does, within R141's number of micro-steps, exactly
what the whole command does (waiting for the host included). -/
def Obligations.MicroStepsRefineTheCommands : Prop :=
  ∀ (i : Instr) (s : State) (n : Nat), microBound i s.host.ops.src.bytes.length ≤ n →
    microRun n (s.beginCommand i) = exec i s

/-- R22: no step writes the ROM or another parameter, reset included. -/
def Obligations.ParametersAreNeverWritten : Prop :=
  ∀ s t : State, step s = .next t → t.par = s.par

/-- The invariant (R25, R93, R32, R113, R24, R101, R42, R43) is kept by every step, from every state that has it. -/
def Obligations.EveryStepKeepsTheInvariant : Prop :=
  ∀ s t : State, Sound s → step s = .next t → Sound t

/-- The machine after reset has the invariant. -/
def Obligations.ResetHasTheInvariant : Prop := Sound State.reset

/-- R124, R133: with a valid table and no stream bound, every step answers a next state, except a host read of a register that holds
no value. -/
def Obligations.NothingElseStopsTheMachine : Prop :=
  ∀ s : State, s.par.wellFormed = true → s.par.maxStream = none →
    (∀ rest, s.host.script = .read .res :: rest → s.resHeld = true) →
    (∀ rest, s.host.script = .read .blkout :: rest → s.blkHeld = true) → Steps s

/-- R106, its row "command end", and R43: on an idle core the host may cut its sink to its first n bytes, and so truncate it or, with
n = 0, discard it; nothing of the core changes. While ENG = BUSY the cut is held and the running command goes on: that is the model's
choice (log 29), and so is that what the script lists behind it waits (log 30). -/
def Obligations.HostCutsTheSinkBetweenCommands : Prop :=
  ∀ (s : State) (n : Nat) (rest : List HostMove), s.par.wellFormed = true → s.host.script = .cutSink n :: rest →
    (s.eng = .idle → step s = .next { s with host := { s.host with script := rest, snk := s.host.snk.take n } }) ∧
    ∀ (i : Instr) (pos : BlockPos), s.eng = .busy i pos →
      step s = microStep s ∧ ∀ t, step s = .next t → t.host.script = s.host.script
end

