-- ==== Sys2Proof/Laws/Flags.lean ====
section
/-!
SUPPORT. The status words of success and of each error as the numbers a host reads (10_state R25, 60_exceptions R115), and the
fields read back from a status word.
-/

namespace Sys2Proof.Machine

@[simp] theorem statusOk_eq : statusOk = 0 := by decide

@[simp] theorem status_invalidKeyLength (n : Nat) : (Err.invalidKeyLength n).status = 1 := by
  simp only [Err.status, Err.code, Err.ioSide]; decide

@[simp] theorem status_invalidBlockLength (m : Nat) : (Err.invalidBlockLength m).status = 2 := by
  simp only [Err.status, Err.code, Err.ioSide]; decide

@[simp] theorem status_ioFailure_source (info : IoInfo) : (Err.ioFailure .source info).status = 3 := by
  simp only [Err.status, Err.code, Err.ioSide]; decide

@[simp] theorem status_ioFailure_sink (info : IoInfo) : (Err.ioFailure .sink info).status = 11 := by
  simp only [Err.status, Err.code, Err.ioSide]; decide

@[simp] theorem status_illegalCommand (w : Word) : (Err.illegalCommand w).status = 4 := by
  simp only [Err.status, Err.code, Err.ioSide]; decide

@[simp] theorem status_noRoundKeys : Err.noRoundKeys.status = 5 := by decide

@[simp] theorem ioInfo_invalidKeyLength (n : Nat) : (Err.invalidKeyLength n).ioInfo = none := rfl

@[simp] theorem ioInfo_invalidBlockLength (m : Nat) : (Err.invalidBlockLength m).ioInfo = none := rfl

@[simp] theorem ioInfo_ioFailure (side : IoSide) (info : IoInfo) : (Err.ioFailure side info).ioInfo = some info := rfl

@[simp] theorem ioInfo_illegalCommand (w : Word) : (Err.illegalCommand w).ioInfo = none := rfl

@[simp] theorem ioInfo_noRoundKeys : Err.noRoundKeys.ioInfo = none := rfl

/-- Every error has a status word of its own code, with the reserved bits 0 (R25). -/
theorem err_status_fields (e : Err) :
    statusCode e.status = e.code ∧ statusIoSide e.status = e.ioSide ∧ statusReserved e.status = 0 := by
  cases e with
  | ioFailure side info => cases side <;> (simp only [Err.status, Err.code, Err.ioSide]; decide)
  | invalidKeyLength n => simp only [Err.status, Err.code, Err.ioSide]; decide
  | invalidBlockLength m => simp only [Err.status, Err.code, Err.ioSide]; decide
  | illegalCommand w => simp only [Err.status, Err.code, Err.ioSide]; decide
  | noRoundKeys => decide

end Sys2Proof.Machine
end

