-- ==== Sys2Proof/Laws/State.lean ====
section
/-!
SUPPORT. The small lemmas of State's updates: one per field per update, true by rfl. `respond` and `raise` are `answerHost` with
their arguments, so the lemmas of `answerHost` serve both.
-/

namespace Sys2Proof.Machine

variable (s : State)

@[simp] theorem State.respond_eq (r : Result) : s.respond r = s.answerHost statusOk r none := rfl
@[simp] theorem State.raise_eq (e : Err) : s.raise e = s.answerHost e.status .none e.ioInfo := rfl

/-! ### responding -/

@[simp] theorem State.answerHost_par (st : Word) (r : Result) (io : Option IoInfo) : (s.answerHost st r io).par = s.par := rfl
@[simp] theorem State.answerHost_rk (st : Word) (r : Result) (io : Option IoInfo) : (s.answerHost st r io).rk = s.rk := rfl
@[simp] theorem State.answerHost_rkValid (st : Word) (r : Result) (io : Option IoInfo) : (s.answerHost st r io).rkValid = s.rkValid := rfl
@[simp] theorem State.answerHost_status (st : Word) (r : Result) (io : Option IoInfo) : (s.answerHost st r io).status = st := rfl
@[simp] theorem State.answerHost_res (st : Word) (r : Result) (io : Option IoInfo) : (s.answerHost st r io).res = s.res := rfl
@[simp] theorem State.answerHost_resHeld (st : Word) (r : Result) (io : Option IoInfo) : (s.answerHost st r io).resHeld = s.resHeld := rfl
@[simp] theorem State.answerHost_blkout (st : Word) (r : Result) (io : Option IoInfo) : (s.answerHost st r io).blkout = s.blkout := rfl
@[simp] theorem State.answerHost_blkHeld (st : Word) (r : Result) (io : Option IoInfo) : (s.answerHost st r io).blkHeld = s.blkHeld := rfl
@[simp] theorem State.answerHost_be (st : Word) (r : Result) (io : Option IoInfo) : (s.answerHost st r io).be = s.be := rfl
@[simp] theorem State.answerHost_fp (st : Word) (r : Result) (io : Option IoInfo) : (s.answerHost st r io).fp = s.fp := rfl
@[simp] theorem State.answerHost_eng (st : Word) (r : Result) (io : Option IoInfo) : (s.answerHost st r io).eng = .idle := rfl
@[simp] theorem State.answerHost_host (st : Word) (r : Result) (io : Option IoInfo) : (s.answerHost st r io).host = { s.host with resps := s.host.resps ++ [{ status := st, result := r, ioInfo := io }] } := rfl
@[simp] theorem State.answerHost_freeCtr (st : Word) (r : Result) (io : Option IoInfo) : (s.answerHost st r io).freeCtr = s.freeCtr := rfl

/-! ### discarding the schedule -/

@[simp] theorem State.discardKeys_par : (s.discardKeys).par = s.par := rfl
@[simp] theorem State.discardKeys_rk : (s.discardKeys).rk = s.rk := rfl
@[simp] theorem State.discardKeys_rkValid : (s.discardKeys).rkValid = false := rfl
@[simp] theorem State.discardKeys_status : (s.discardKeys).status = s.status := rfl
@[simp] theorem State.discardKeys_res : (s.discardKeys).res = s.res := rfl
@[simp] theorem State.discardKeys_resHeld : (s.discardKeys).resHeld = s.resHeld := rfl
@[simp] theorem State.discardKeys_blkout : (s.discardKeys).blkout = s.blkout := rfl
@[simp] theorem State.discardKeys_blkHeld : (s.discardKeys).blkHeld = s.blkHeld := rfl
@[simp] theorem State.discardKeys_be : (s.discardKeys).be = s.be := rfl
@[simp] theorem State.discardKeys_fp : (s.discardKeys).fp = s.fp := rfl
@[simp] theorem State.discardKeys_eng : (s.discardKeys).eng = s.eng := rfl
@[simp] theorem State.discardKeys_host : (s.discardKeys).host = s.host := rfl
@[simp] theorem State.discardKeys_freeCtr : (s.discardKeys).freeCtr = s.freeCtr := rfl

/-! ### the host's script moving on -/

@[simp] theorem State.withScript_par (ms : List HostMove) : (s.withScript ms).par = s.par := rfl
@[simp] theorem State.withScript_rk (ms : List HostMove) : (s.withScript ms).rk = s.rk := rfl
@[simp] theorem State.withScript_rkValid (ms : List HostMove) : (s.withScript ms).rkValid = s.rkValid := rfl
@[simp] theorem State.withScript_status (ms : List HostMove) : (s.withScript ms).status = s.status := rfl
@[simp] theorem State.withScript_res (ms : List HostMove) : (s.withScript ms).res = s.res := rfl
@[simp] theorem State.withScript_resHeld (ms : List HostMove) : (s.withScript ms).resHeld = s.resHeld := rfl
@[simp] theorem State.withScript_blkout (ms : List HostMove) : (s.withScript ms).blkout = s.blkout := rfl
@[simp] theorem State.withScript_blkHeld (ms : List HostMove) : (s.withScript ms).blkHeld = s.blkHeld := rfl
@[simp] theorem State.withScript_be (ms : List HostMove) : (s.withScript ms).be = s.be := rfl
@[simp] theorem State.withScript_fp (ms : List HostMove) : (s.withScript ms).fp = s.fp := rfl
@[simp] theorem State.withScript_eng (ms : List HostMove) : (s.withScript ms).eng = s.eng := rfl
@[simp] theorem State.withScript_host (ms : List HostMove) : (s.withScript ms).host = { s.host with script := ms } := rfl
@[simp] theorem State.withScript_freeCtr (ms : List HostMove) : (s.withScript ms).freeCtr = s.freeCtr := rfl

/-! ### the host cutting its sink -/

@[simp] theorem State.cutSink_par (n : Nat) : (s.cutSink n).par = s.par := rfl
@[simp] theorem State.cutSink_rk (n : Nat) : (s.cutSink n).rk = s.rk := rfl
@[simp] theorem State.cutSink_rkValid (n : Nat) : (s.cutSink n).rkValid = s.rkValid := rfl
@[simp] theorem State.cutSink_status (n : Nat) : (s.cutSink n).status = s.status := rfl
@[simp] theorem State.cutSink_res (n : Nat) : (s.cutSink n).res = s.res := rfl
@[simp] theorem State.cutSink_resHeld (n : Nat) : (s.cutSink n).resHeld = s.resHeld := rfl
@[simp] theorem State.cutSink_blkout (n : Nat) : (s.cutSink n).blkout = s.blkout := rfl
@[simp] theorem State.cutSink_blkHeld (n : Nat) : (s.cutSink n).blkHeld = s.blkHeld := rfl
@[simp] theorem State.cutSink_be (n : Nat) : (s.cutSink n).be = s.be := rfl
@[simp] theorem State.cutSink_fp (n : Nat) : (s.cutSink n).fp = s.fp := rfl
@[simp] theorem State.cutSink_eng (n : Nat) : (s.cutSink n).eng = s.eng := rfl
@[simp] theorem State.cutSink_host (n : Nat) : (s.cutSink n).host = { s.host with snk := s.host.snk.take n } := rfl
@[simp] theorem State.cutSink_freeCtr (n : Nat) : (s.cutSink n).freeCtr = s.freeCtr := rfl

/-! ### presenting an operand record -/

@[simp] theorem State.present_par (c : Command) : (s.present c).par = s.par := rfl
@[simp] theorem State.present_rk (c : Command) : (s.present c).rk = s.rk := rfl
@[simp] theorem State.present_rkValid (c : Command) : (s.present c).rkValid = s.rkValid := rfl
@[simp] theorem State.present_status (c : Command) : (s.present c).status = s.status := rfl
@[simp] theorem State.present_res (c : Command) : (s.present c).res = s.res := rfl
@[simp] theorem State.present_resHeld (c : Command) : (s.present c).resHeld = s.resHeld := rfl
@[simp] theorem State.present_blkout (c : Command) : (s.present c).blkout = s.blkout := rfl
@[simp] theorem State.present_blkHeld (c : Command) : (s.present c).blkHeld = s.blkHeld := rfl
@[simp] theorem State.present_be (c : Command) : (s.present c).be = s.be := rfl
@[simp] theorem State.present_fp (c : Command) : (s.present c).fp = s.fp := rfl
@[simp] theorem State.present_eng (c : Command) : (s.present c).eng = s.eng := rfl
@[simp] theorem State.present_host (c : Command) : (s.present c).host = { s.host with ops := c.ops } := rfl
@[simp] theorem State.present_freeCtr (c : Command) : (s.present c).freeCtr = s.freeCtr := rfl

/-! ### a served read -/

@[simp] theorem State.deliver_par (as : List Answer) : (s.deliver as).par = s.par := rfl
@[simp] theorem State.deliver_rk (as : List Answer) : (s.deliver as).rk = s.rk := rfl
@[simp] theorem State.deliver_rkValid (as : List Answer) : (s.deliver as).rkValid = s.rkValid := rfl
@[simp] theorem State.deliver_status (as : List Answer) : (s.deliver as).status = s.status := rfl
@[simp] theorem State.deliver_res (as : List Answer) : (s.deliver as).res = s.res := rfl
@[simp] theorem State.deliver_resHeld (as : List Answer) : (s.deliver as).resHeld = s.resHeld := rfl
@[simp] theorem State.deliver_blkout (as : List Answer) : (s.deliver as).blkout = s.blkout := rfl
@[simp] theorem State.deliver_blkHeld (as : List Answer) : (s.deliver as).blkHeld = s.blkHeld := rfl
@[simp] theorem State.deliver_be (as : List Answer) : (s.deliver as).be = s.be := rfl
@[simp] theorem State.deliver_fp (as : List Answer) : (s.deliver as).fp = s.fp := rfl
@[simp] theorem State.deliver_eng (as : List Answer) : (s.deliver as).eng = s.eng := rfl
@[simp] theorem State.deliver_host (as : List Answer) : (s.deliver as).host = { s.host with
      src := { bytes := s.host.src.bytes.drop 8, answers := as }
      events := s.host.events ++ [.read (s.host.src.bytes.take 8)] } := rfl
@[simp] theorem State.deliver_freeCtr (as : List Answer) : (s.deliver as).freeCtr = s.freeCtr := rfl

/-! ### an accepted write -/

@[simp] theorem State.sinkTake_par (v : Block) (as : List Answer) : (s.sinkTake v as).par = s.par := rfl
@[simp] theorem State.sinkTake_rk (v : Block) (as : List Answer) : (s.sinkTake v as).rk = s.rk := rfl
@[simp] theorem State.sinkTake_rkValid (v : Block) (as : List Answer) : (s.sinkTake v as).rkValid = s.rkValid := rfl
@[simp] theorem State.sinkTake_status (v : Block) (as : List Answer) : (s.sinkTake v as).status = s.status := rfl
@[simp] theorem State.sinkTake_res (v : Block) (as : List Answer) : (s.sinkTake v as).res = s.res := rfl
@[simp] theorem State.sinkTake_resHeld (v : Block) (as : List Answer) : (s.sinkTake v as).resHeld = s.resHeld := rfl
@[simp] theorem State.sinkTake_blkout (v : Block) (as : List Answer) : (s.sinkTake v as).blkout = s.blkout := rfl
@[simp] theorem State.sinkTake_blkHeld (v : Block) (as : List Answer) : (s.sinkTake v as).blkHeld = s.blkHeld := rfl
@[simp] theorem State.sinkTake_be (v : Block) (as : List Answer) : (s.sinkTake v as).be = s.be := rfl
@[simp] theorem State.sinkTake_fp (v : Block) (as : List Answer) : (s.sinkTake v as).fp = s.fp := rfl
@[simp] theorem State.sinkTake_eng (v : Block) (as : List Answer) : (s.sinkTake v as).eng = s.eng := rfl
@[simp] theorem State.sinkTake_host (v : Block) (as : List Answer) : (s.sinkTake v as).host = { s.host with snk := s.host.snk ++ v.toList, snkAnswers := as, events := s.host.events ++ [.wrote v] } := rfl
@[simp] theorem State.sinkTake_freeCtr (v : Block) (as : List Answer) : (s.sinkTake v as).freeCtr = s.freeCtr := rfl

/-! ### a stream's start -/

@[simp] theorem State.openStream_par (i : Instr) (m : Mode) : (s.openStream i m).par = s.par := rfl
@[simp] theorem State.openStream_rk (i : Instr) (m : Mode) : (s.openStream i m).rk = s.rk := rfl
@[simp] theorem State.openStream_rkValid (i : Instr) (m : Mode) : (s.openStream i m).rkValid = s.rkValid := rfl
@[simp] theorem State.openStream_status (i : Instr) (m : Mode) : (s.openStream i m).status = s.status := rfl
@[simp] theorem State.openStream_res (i : Instr) (m : Mode) : (s.openStream i m).res = s.res := rfl
@[simp] theorem State.openStream_resHeld (i : Instr) (m : Mode) : (s.openStream i m).resHeld = s.resHeld := rfl
@[simp] theorem State.openStream_blkout (i : Instr) (m : Mode) : (s.openStream i m).blkout = s.blkout := rfl
@[simp] theorem State.openStream_blkHeld (i : Instr) (m : Mode) : (s.openStream i m).blkHeld = s.blkHeld := rfl
@[simp] theorem State.openStream_be (i : Instr) (m : Mode) : (s.openStream i m).be = s.be := rfl
@[simp] theorem State.openStream_fp (i : Instr) (m : Mode) : (s.openStream i m).fp = { s.fp with mode := m, phase := .keyload } := rfl
@[simp] theorem State.openStream_eng (i : Instr) (m : Mode) : (s.openStream i m).eng = .busy i .load := rfl
@[simp] theorem State.openStream_host (i : Instr) (m : Mode) : (s.openStream i m).host = { s.host with src := s.host.ops.src, snk := [], snkAnswers := s.host.ops.snk, events := [] } := rfl
@[simp] theorem State.openStream_freeCtr (i : Instr) (m : Mode) : (s.openStream i m).freeCtr = s.freeCtr := rfl

/-! ### reset -/

@[simp] theorem State.resetCore_par : (s.resetCore).par = s.par := rfl
@[simp] theorem State.resetCore_rk : (s.resetCore).rk = Vector.replicate 32 0 := rfl
@[simp] theorem State.resetCore_rkValid : (s.resetCore).rkValid = false := rfl
@[simp] theorem State.resetCore_status : (s.resetCore).status = 0 := rfl
@[simp] theorem State.resetCore_res : (s.resetCore).res = 0 := rfl
@[simp] theorem State.resetCore_resHeld : (s.resetCore).resHeld = false := rfl
@[simp] theorem State.resetCore_blkout : (s.resetCore).blkout = Block.zero := rfl
@[simp] theorem State.resetCore_blkHeld : (s.resetCore).blkHeld = false := rfl
@[simp] theorem State.resetCore_be : (s.resetCore).be = BlockEngine.reset := rfl
@[simp] theorem State.resetCore_fp : (s.resetCore).fp = FileProc.reset := rfl
@[simp] theorem State.resetCore_eng : (s.resetCore).eng = .idle := rfl
@[simp] theorem State.resetCore_host : (s.resetCore).host = s.host := rfl
@[simp] theorem State.resetCore_freeCtr : (s.resetCore).freeCtr = s.freeCtr := rfl

/-! ### a failed read -/

@[simp] theorem State.failRead_par (info : IoInfo) (as : List Answer) : (s.failRead info as).par = s.par := rfl
@[simp] theorem State.failRead_rk (info : IoInfo) (as : List Answer) : (s.failRead info as).rk = s.rk := rfl
@[simp] theorem State.failRead_rkValid (info : IoInfo) (as : List Answer) : (s.failRead info as).rkValid = s.rkValid := rfl
@[simp] theorem State.failRead_status (info : IoInfo) (as : List Answer) : (s.failRead info as).status = s.status := rfl
@[simp] theorem State.failRead_res (info : IoInfo) (as : List Answer) : (s.failRead info as).res = s.res := rfl
@[simp] theorem State.failRead_resHeld (info : IoInfo) (as : List Answer) : (s.failRead info as).resHeld = s.resHeld := rfl
@[simp] theorem State.failRead_blkout (info : IoInfo) (as : List Answer) : (s.failRead info as).blkout = s.blkout := rfl
@[simp] theorem State.failRead_blkHeld (info : IoInfo) (as : List Answer) : (s.failRead info as).blkHeld = s.blkHeld := rfl
@[simp] theorem State.failRead_be (info : IoInfo) (as : List Answer) : (s.failRead info as).be = s.be := rfl
@[simp] theorem State.failRead_fp (info : IoInfo) (as : List Answer) : (s.failRead info as).fp = s.fp := rfl
@[simp] theorem State.failRead_eng (info : IoInfo) (as : List Answer) : (s.failRead info as).eng = s.eng := rfl
@[simp] theorem State.failRead_host (info : IoInfo) (as : List Answer) : (s.failRead info as).host = { s.host with
      src := { bytes := s.host.src.bytes, answers := as }
      events := s.host.events ++ [.readFailed info] } := rfl
@[simp] theorem State.failRead_freeCtr (info : IoInfo) (as : List Answer) : (s.failRead info as).freeCtr = s.freeCtr := rfl

/-! ### a failed write -/

@[simp] theorem State.failWrite_par (v : Block) (info : IoInfo) (as : List Answer) : (s.failWrite v info as).par = s.par := rfl
@[simp] theorem State.failWrite_rk (v : Block) (info : IoInfo) (as : List Answer) : (s.failWrite v info as).rk = s.rk := rfl
@[simp] theorem State.failWrite_rkValid (v : Block) (info : IoInfo) (as : List Answer) : (s.failWrite v info as).rkValid = s.rkValid := rfl
@[simp] theorem State.failWrite_status (v : Block) (info : IoInfo) (as : List Answer) : (s.failWrite v info as).status = s.status := rfl
@[simp] theorem State.failWrite_res (v : Block) (info : IoInfo) (as : List Answer) : (s.failWrite v info as).res = s.res := rfl
@[simp] theorem State.failWrite_resHeld (v : Block) (info : IoInfo) (as : List Answer) : (s.failWrite v info as).resHeld = s.resHeld := rfl
@[simp] theorem State.failWrite_blkout (v : Block) (info : IoInfo) (as : List Answer) : (s.failWrite v info as).blkout = s.blkout := rfl
@[simp] theorem State.failWrite_blkHeld (v : Block) (info : IoInfo) (as : List Answer) : (s.failWrite v info as).blkHeld = s.blkHeld := rfl
@[simp] theorem State.failWrite_be (v : Block) (info : IoInfo) (as : List Answer) : (s.failWrite v info as).be = s.be := rfl
@[simp] theorem State.failWrite_fp (v : Block) (info : IoInfo) (as : List Answer) : (s.failWrite v info as).fp = s.fp := rfl
@[simp] theorem State.failWrite_eng (v : Block) (info : IoInfo) (as : List Answer) : (s.failWrite v info as).eng = s.eng := rfl
@[simp] theorem State.failWrite_host (v : Block) (info : IoInfo) (as : List Answer) : (s.failWrite v info as).host = { s.host with
      snk := s.host.snk ++ v.toList.take (Config.failedWritePrefix s.freeCtr).val
      snkAnswers := as
      events := s.host.events ++ [.writeFailed v info] } := rfl
@[simp] theorem State.failWrite_freeCtr (v : Block) (info : IoInfo) (as : List Answer) : (s.failWrite v info as).freeCtr = s.freeCtr + 1 := rfl

/-! ### operands: they come from the operand record alone -/

@[simp] theorem State.opA_eq : s.opA = s.host.ops.a := rfl
@[simp] theorem State.opK_eq : s.opK = s.host.ops.k := rfl
@[simp] theorem State.opKey_eq : s.opKey = s.host.ops.key := rfl
@[simp] theorem State.opBlk_eq : s.opBlk = s.host.ops.blk := rfl
@[simp] theorem State.blkOperand_eq : s.blkOperand = blockOfBytes s.host.ops.blk := rfl
@[simp] theorem State.keyLengthOk_iff : s.keyLengthOk = true ↔ s.host.ops.key.length = 32 := decide_eq_true_iff
@[simp] theorem State.blkLengthOk_iff : s.blkLengthOk = true ↔ s.host.ops.blk.length = 8 := decide_eq_true_iff

end Sys2Proof.Machine
end

