-- ==== Sys2Proof/Laws/FileProcessor.lean ====
section
/-!
SUPPORT. What the stream primitives and the phases of a stream command can do (44_file_processor R104, R106), said once each, and the
induction over the stream loop.
-/

namespace Sys2Proof.Machine

/-- A request is served: the host's next answer is success, or none is listed any more. `rest` is what is left of the answers. -/
def Served (answers rest : List Answer) : Prop :=
  (answers = [] ∧ rest = []) ∨ answers = .ok :: rest

/-- Everything `SrcRead(8)` can do (R106). -/
theorem srcRead_cases (s : State) :
    (∃ rest, Served s.host.src.answers rest ∧ s.srcRead = (.bytes (s.host.src.bytes.take 8), s.deliver rest)) ∨
    (∃ info rest, s.host.src.answers = .fail info :: rest ∧ s.srcRead = (.failed info, s.failRead info rest)) ∨
    (∃ rest, s.host.src.answers = .silent :: rest ∧ s.srcRead = (.waiting, s)) := by
  unfold State.srcRead
  rcases h : s.host.src.answers with _ | ⟨a, rest⟩
  · exact .inl ⟨[], .inl ⟨rfl, rfl⟩, rfl⟩
  · cases a with
    | ok => exact .inl ⟨rest, .inr rfl, rfl⟩
    | fail info => exact .inr (.inl ⟨info, rest, rfl, rfl⟩)
    | silent => exact .inr (.inr ⟨rest, rfl, rfl⟩)

/-- Everything `SinkWrite(8, v)` can do (R106). -/
theorem sinkWrite_cases (s : State) (v : Block) :
    (∃ rest, Served s.host.snkAnswers rest ∧ s.sinkWrite v = (.ok, s.sinkTake v rest)) ∨
    (∃ info rest, s.host.snkAnswers = .fail info :: rest ∧ s.sinkWrite v = (.failed info, s.failWrite v info rest)) ∨
    (∃ rest, s.host.snkAnswers = .silent :: rest ∧ s.sinkWrite v = (.waiting, s)) := by
  unfold State.sinkWrite
  rcases h : s.host.snkAnswers with _ | ⟨a, rest⟩
  · exact .inl ⟨[], .inl ⟨rfl, rfl⟩, rfl⟩
  · cases a with
    | ok => exact .inl ⟨rest, .inr rfl, rfl⟩
    | fail info => exact .inr (.inl ⟨info, rest, rfl, rfl⟩)
    | silent => exact .inr (.inr ⟨rest, rfl, rfl⟩)

/-- Everything the READ phase can do (R102, R107). -/
theorem readStep_cases (s : State) :
    (∃ rest, Served s.host.src.answers rest ∧
      s.readStep = { s.deliver rest with fp := s.fp.took (s.host.src.bytes.take 8) }) ∨
    (∃ info rest, s.host.src.answers = .fail info :: rest ∧
      s.readStep = (s.failRead info rest).discardKeys.raise (.ioFailure .source info)) ∨
    (∃ rest, s.host.src.answers = .silent :: rest ∧ s.readStep = s) := by
  unfold State.readStep
  rcases srcRead_cases s with ⟨rest, h, e⟩ | ⟨info, rest, h, e⟩ | ⟨rest, h, e⟩ <;> rw [e]
  · exact .inl ⟨rest, h, rfl⟩
  · exact .inr (.inl ⟨info, rest, h, rfl⟩)
  · exact .inr (.inr ⟨rest, h, rfl⟩)

/-- Everything the WRITE phase can do (R104, R108). -/
theorem writeStep_cases (s : State) :
    (∃ rest, Served s.host.snkAnswers rest ∧
      s.writeStep = { s.sinkTake s.fp.xblk rest with fp := { s.fp with outPos := s.fp.outPos + 8, phase := .read } }) ∨
    (∃ info rest, s.host.snkAnswers = .fail info :: rest ∧
      s.writeStep = (s.failWrite s.fp.xblk info rest).discardKeys.raise (.ioFailure .sink info)) ∨
    (∃ rest, s.host.snkAnswers = .silent :: rest ∧ s.writeStep = s) := by
  unfold State.writeStep
  rcases sinkWrite_cases s s.fp.xblk with ⟨rest, h, e⟩ | ⟨info, rest, h, e⟩ | ⟨rest, h, e⟩ <;> rw [e]
  · exact .inl ⟨rest, h, rfl⟩
  · exact .inr (.inl ⟨info, rest, h, rfl⟩)
  · exact .inr (.inr ⟨rest, h, rfl⟩)

/-- Everything the KEYLOAD phase can do (R101, R113). -/
theorem keyLoadStep_cases (s : State) (i : Instr) (m : Mode) :
    (s.host.ops.key.length ≠ 32 ∧
      s.keyLoadStep i m = .next ((s.openStream i m).discardKeys.raise (.invalidKeyLength s.host.ops.key.length))) ∨
    (s.host.ops.key.length = 32 ∧ (s.openStream i m).streamTooLong = true ∧ s.keyLoadStep i m = .refused .streamTooLong) ∨
    (s.host.ops.key.length = 32 ∧ (s.openStream i m).streamTooLong = false ∧
      s.keyLoadStep i m = .next
        { s.openStream i m with
          rk := keySchedule s.host.ops.key
          fp := { s.fp with mode := m, phase := .read, inPos := 0, outPos := 0 } }) := by
  unfold State.keyLoadStep
  by_cases hk : s.host.ops.key.length = 32
  · have hk' : (s.openStream i m).keyLengthOk = true := by simpa using hk
    cases hl : (s.openStream i m).streamTooLong
    · exact .inr (.inr ⟨hk, rfl, by simp [hk', hl]⟩)
    · exact .inr (.inl ⟨hk, rfl, by simp [hk', hl]⟩)
  · have hk' : (s.openStream i m).keyLengthOk = false := by
      rw [Bool.eq_false_iff]; simpa using hk
    exact .inl ⟨hk, by simp [hk']⟩

/-- The bound of R113, read out. -/
theorem streamTooLong_openStream (s : State) (i : Instr) (m : Mode) :
    (s.openStream i m).streamTooLong = false ↔ ∀ n, s.par.maxStream = some n → s.host.ops.src.bytes.length ≤ n := by
  unfold State.streamTooLong
  cases h : s.par.maxStream with
  | none => simp [h]
  | some n =>
    simp only [State.openStream_par, h, State.openStream_host, Option.some.injEq, forall_eq']
    exact decide_eq_false_iff_not.trans Nat.not_lt

@[simp] theorem took_phase_nil (f : FileProc) : (f.took []).phase = .done := rfl

@[simp] theorem took_phase_cons (f : FileProc) (b : Byte) (c : List Byte) : (f.took (b :: c)).phase = .xform := rfl

/-- One turn of the stream loop, unfolded. -/
theorem streamLoop_succ (m : Mode) (n : Nat) (s : State) :
    State.streamLoop m (n + 1) s =
      (match s.readStep.fp.phase with
        | .xform =>
          (match (s.readStep.xformStep m).writeStep.fp.phase with
            | .read => State.streamLoop m n (s.readStep.xformStep m).writeStep
            | _ => (s.readStep.xformStep m).writeStep)
        | .done => s.readStep.doneStep
        | _ => s.readStep) := rfl

/-- Induction over the stream loop: P holds each time round, Q of the state it leaves. -/
theorem streamLoop_induction {m : Mode} {P Q : State → Prop}
    (outOfReads : ∀ s, P s → Q s)
    (readStops : ∀ s, P s → s.readStep.fp.phase ≠ .xform → s.readStep.fp.phase ≠ .done → Q s.readStep)
    (exhausted : ∀ s, P s → s.readStep.fp.phase = .done → Q s.readStep.doneStep)
    (writeStops : ∀ s, P s → s.readStep.fp.phase = .xform → (s.readStep.xformStep m).writeStep.fp.phase ≠ .read →
      Q (s.readStep.xformStep m).writeStep)
    (again : ∀ s, P s → s.readStep.fp.phase = .xform → (s.readStep.xformStep m).writeStep.fp.phase = .read →
      P (s.readStep.xformStep m).writeStep) :
    ∀ n s, P s → Q (State.streamLoop m n s) := by
  intro n
  induction n with
  | zero => exact outOfReads
  | succ n ih =>
    intro s hs
    rw [streamLoop_succ]
    cases hp : s.readStep.fp.phase with
    | xform =>
      cases hw : (s.readStep.xformStep m).writeStep.fp.phase with
      | read => exact ih _ (again s hs hp hw)
      | keyload => exact writeStops s hs hp (by simp [hw])
      | xform => exact writeStops s hs hp (by simp [hw])
      | write => exact writeStops s hs hp (by simp [hw])
      | done => exact writeStops s hs hp (by simp [hw])
    | done => exact exhausted s hs hp
    | keyload => exact readStops s hs (by simp [hp]) (by simp [hp])
    | read => exact readStops s hs (by simp [hp]) (by simp [hp])
    | write => exact readStops s hs (by simp [hp]) (by simp [hp])

/-- A read from the loop's head that leads to XFORM was served and delivered something (R102). -/
theorem readStep_xform {s : State} (hp : s.fp.phase = .read) (h : s.readStep.fp.phase = .xform) :
    ∃ rest, Served s.host.src.answers rest ∧ s.host.src.bytes ≠ [] ∧
      s.readStep = { s.deliver rest with fp := s.fp.took (s.host.src.bytes.take 8) } := by
  rcases readStep_cases s with ⟨rest, hs, e⟩ | ⟨info, rest, hs, e⟩ | ⟨rest, hs, e⟩
  · refine ⟨rest, hs, ?_, e⟩
    intro hb
    rw [e, hb] at h
    cases h
  · rw [e] at h
    simp [hp] at h
  · rw [e, hp] at h
    cases h

/-- A read from the loop's head that leads to DONE was served and delivered nothing (R102). -/
theorem readStep_done {s : State} (hp : s.fp.phase = .read) (h : s.readStep.fp.phase = .done) :
    ∃ rest, Served s.host.src.answers rest ∧ s.host.src.bytes = [] ∧
      s.readStep = { s.deliver rest with fp := s.fp.took [] } := by
  rcases readStep_cases s with ⟨rest, hs, e⟩ | ⟨info, rest, hs, e⟩ | ⟨rest, hs, e⟩
  · refine ⟨rest, hs, ?_⟩
    rcases hb : s.host.src.bytes with _ | ⟨b, bs⟩
    · exact ⟨rfl, by simpa [hb] using e⟩
    · rw [e, hb] at h
      cases h
  · rw [e] at h
    simp [hp] at h
  · rw [e, hp] at h
    cases h

/-- A write that leads back to READ was accepted (R104). -/
theorem writeStep_read {s : State} (hp : s.fp.phase = .write) (h : s.writeStep.fp.phase = .read) :
    ∃ rest, Served s.host.snkAnswers rest ∧
      s.writeStep = { s.sinkTake s.fp.xblk rest with fp := { s.fp with outPos := s.fp.outPos + 8, phase := .read } } := by
  rcases writeStep_cases s with ⟨rest, hs, e⟩ | ⟨info, rest, hs, e⟩ | ⟨rest, hs, e⟩
  · exact ⟨rest, hs, e⟩
  · rw [e] at h
    simp [hp] at h
  · rw [e, hp] at h
    cases h

/-- A write changes nothing of the source. -/
@[simp] theorem writeStep_src (s : State) : s.writeStep.host.src = s.host.src := by
  rcases writeStep_cases s with ⟨rest, hs, e⟩ | ⟨info, rest, hs, e⟩ | ⟨rest, hs, e⟩ <;> rw [e]
  · rfl
  · rfl

/-- Induction over the stream loop with the reads it has (R102): it never runs out of them. -/
theorem streamLoop_induction_enough {m : Mode} {P Q : State → Prop}
    (atRead : ∀ s, P s → s.fp.phase = .read)
    (readStops : ∀ s, P s → s.readStep.fp.phase ≠ .xform → s.readStep.fp.phase ≠ .done → Q s.readStep)
    (exhausted : ∀ s, P s → s.readStep.fp.phase = .done → Q s.readStep.doneStep)
    (writeStops : ∀ s, P s → s.readStep.fp.phase = .xform → (s.readStep.xformStep m).writeStep.fp.phase ≠ .read →
      Q (s.readStep.xformStep m).writeStep)
    (again : ∀ s, P s → s.readStep.fp.phase = .xform → (s.readStep.xformStep m).writeStep.fp.phase = .read →
      P (s.readStep.xformStep m).writeStep) :
    ∀ n s, P s → streamReads s.host.src.bytes.length ≤ n → Q (State.streamLoop m n s) := by
  intro n
  induction n with
  | zero =>
    intro s _ h
    simp [streamReads] at h
  | succ n ih =>
    intro s hs hn
    rw [streamLoop_succ]
    cases hp : s.readStep.fp.phase with
    | xform =>
      cases hw : (s.readStep.xformStep m).writeStep.fp.phase with
      | read =>
        refine ih _ (again s hs hp hw) ?_
        obtain ⟨rest, _, hne, e⟩ := readStep_xform (atRead s hs) hp
        have hpos : 0 < s.host.src.bytes.length := List.length_pos_iff.mpr hne
        have hb : (s.readStep.xformStep m).host.src.bytes = s.host.src.bytes.drop 8 := by rw [e]; rfl
        rw [writeStep_src, hb, List.length_drop]
        unfold streamReads at hn ⊢
        omega
      | keyload => exact writeStops s hs hp (by simp [hw])
      | xform => exact writeStops s hs hp (by simp [hw])
      | write => exact writeStops s hs hp (by simp [hw])
      | done => exact writeStops s hs hp (by simp [hw])
    | done => exact exhausted s hs hp
    | keyload => exact readStops s hs (by simp [hp]) (by simp [hp])
    | read => exact readStops s hs (by simp [hp]) (by simp [hp])
    | write => exact readStops s hs (by simp [hp]) (by simp [hp])

end Sys2Proof.Machine
end

