-- ==== Sys2Proof/Laws/Step.lean ====
section
/-!
SUPPORT. What one step can do, said once: one lemma for the whole commands, one for the micro-steps, one for the step.
-/

namespace Sys2Proof.Machine

/-- Everything a block command can do (R94, R95, R116). -/
theorem blockCommand_cases (m : Mode) (s : State) :
    (s.host.ops.blk.length ≠ 8 ∧ blockCommand m s = s.raise (.invalidBlockLength s.host.ops.blk.length)) ∨
    (s.host.ops.blk.length = 8 ∧ s.rkValid = false ∧ blockCommand m s = s.raise .noRoundKeys) ∨
    (s.host.ops.blk.length = 8 ∧ s.rkValid = true ∧
      blockCommand m s =
        { s with
          be := engineAfter s.par m s.rk s.blkOperand
          blkout := cipherCore s.par m s.rk s.blkOperand
          blkHeld := true }.respond (.blkout (cipherCore s.par m s.rk s.blkOperand))) := by
  unfold blockCommand
  by_cases hb : s.host.ops.blk.length = 8
  · have hb' : s.blkLengthOk = true := by simpa using hb
    cases hv : s.rkValid
    · exact .inr (.inl ⟨hb, rfl, by simp [hb']⟩)
    · exact .inr (.inr ⟨hb, rfl, by simp [hb']⟩)
  · have hb' : s.blkLengthOk = false := by rw [Bool.eq_false_iff]; simpa using hb
    exact .inl ⟨hb, by simp [hb']⟩

/-- A stream command is its key load and, where that leads to READ, the loop (R100). -/
theorem streamCommand_cases (i : Instr) (m : Mode) (s : State) :
    (s.host.ops.key.length ≠ 32 ∧
      streamCommand i m s = .next ((s.openStream i m).discardKeys.raise (.invalidKeyLength s.host.ops.key.length))) ∨
    (s.host.ops.key.length = 32 ∧ (s.openStream i m).streamTooLong = true ∧ streamCommand i m s = .refused .streamTooLong) ∨
    (s.host.ops.key.length = 32 ∧ (s.openStream i m).streamTooLong = false ∧
      streamCommand i m s = .next (State.streamLoop m (streamReads s.host.ops.src.bytes.length)
        { s.openStream i m with
          rk := keySchedule s.host.ops.key
          fp := { s.fp with mode := m, phase := .read, inPos := 0, outPos := 0 } })) := by
  unfold streamCommand
  rcases keyLoadStep_cases s i m with ⟨hk, e⟩ | ⟨hk, hl, e⟩ | ⟨hk, hl, e⟩ <;> rw [e]
  · exact .inl ⟨hk, rfl⟩
  · exact .inr (.inl ⟨hk, hl, rfl⟩)
  · exact .inr (.inr ⟨hk, hl, rfl⟩)

/-- Everything KEYX can do (R78). -/
theorem execKeyx_cases (s : State) :
    (s.host.ops.key.length = 32 ∧
      execKeyx s = .next ({ s with rk := keySchedule s.host.ops.key, rkValid := true }.respond
        (.rkout (keySchedule s.host.ops.key)))) ∨
    (s.host.ops.key.length ≠ 32 ∧ execKeyx s = .next (s.raise (.invalidKeyLength s.host.ops.key.length))) := by
  unfold execKeyx
  by_cases hk : s.host.ops.key.length = 32
  · have hk' : s.keyLengthOk = true := by simpa using hk
    exact .inl ⟨hk, by simp [hk']⟩
  · have hk' : s.keyLengthOk = false := by rw [Bool.eq_false_iff]; simpa using hk
    exact .inr ⟨hk, by simp [hk']⟩

/-- Which of the machine's events a step is (R123, R135): a micro-step (of the state itself, or with the host's move taken off the
script), a command issued or started on an idle core, reset, a port read, or the sink cut while the core is idle. -/
theorem hostStep_cases (s : State) :
    (hostStep s = microStep s) ∨
    (∃ rest, s.host.script = .tick :: rest ∧ hostStep s = microStep (s.withScript rest)) ∨
    (∃ rest, s.host.script = .reset :: rest ∧ hostStep s = .next (s.withScript rest).resetCore) ∨
    (∃ p rest, s.host.script = .read p :: rest ∧ hostStep s = readPort p (s.withScript rest)) ∨
    (∃ c rest, s.host.script = .issue c :: rest ∧ s.eng = .idle ∧ hostStep s = issueCommand c (s.withScript rest)) ∨
    (∃ c rest, s.host.script = .start c :: rest ∧ s.eng = .idle ∧ hostStep s = startCommand c (s.withScript rest)) ∨
    (∃ n rest, s.host.script = .cutSink n :: rest ∧ s.eng = .idle ∧ hostStep s = .next ((s.withScript rest).cutSink n)) := by
  unfold hostStep
  rcases h : s.host.script with _ | ⟨mv, rest⟩
  · exact .inl rfl
  · cases mv with
    | tick => exact .inr (.inl ⟨rest, rfl, rfl⟩)
    | reset => exact .inr (.inr (.inl ⟨rest, rfl, rfl⟩))
    | read p => exact .inr (.inr (.inr (.inl ⟨p, rest, rfl, rfl⟩)))
    | issue c =>
      cases he : s.eng with
      | idle => exact .inr (.inr (.inr (.inr (.inl ⟨c, rest, rfl, rfl, rfl⟩))))
      | busy i pos => exact .inl rfl
    | start c =>
      cases he : s.eng with
      | idle => exact .inr (.inr (.inr (.inr (.inr (.inl ⟨c, rest, rfl, rfl, rfl⟩)))))
      | busy i pos => exact .inl rfl
    | cutSink n =>
      cases he : s.eng with
      | idle => exact .inr (.inr (.inr (.inr (.inr (.inr ⟨n, rest, rfl, rfl, rfl⟩)))))
      | busy i pos => exact .inl rfl

/-- A step that answers is a step with a valid table, and then what `hostStep` answers (R74). -/
theorem step_next {s t : State} (h : step s = .next t) : s.par.wellFormed = true ∧ hostStep s = .next t := by
  unfold step at h
  split at h
  · exact ⟨‹_›, h⟩
  · cases h

/-- With a valid table a step is what `hostStep` says. -/
theorem step_eq_hostStep {s : State} (h : s.par.wellFormed = true) : step s = hostStep s := by
  simp [step, h]

end Sys2Proof.Machine
end

