-- ==== Sys2Proof/Laws/Micro.lean ====
section
/-!
SUPPORT. The micro-steps of a command (43_block_cipher R93, 44_file_processor R104): which operation each is, how runs of them
compose, how RND moves, and what every step of a command leaves alone on the host's side.
-/

namespace Sys2Proof.Machine

/-- Two answers with a next state that are equal have equal next states. -/
theorem next_inj {a b : State} (h : (Host.Outcome.next a : Host.Outcome State Fault Refusal) = .next b) : a = b := by
  cases h; rfl

/-- A statement about every command, from KEYX, GF, the block commands and the stream commands. -/
theorem instr_families {P : Instr → Prop} (keyx : P .keyx) (gf : P .gf) (block : ∀ m, P (blockInstr m))
    (stream : ∀ m, P (streamInstr m)) : ∀ i, P i
  | .keyx => keyx
  | .gf => gf
  | .encb => block .encrypt
  | .decb => block .decrypt
  | .pse => stream .encrypt
  | .psd => stream .decrypt

/-- The block command of a mode, as a meaning (R94, R95). -/
theorem exec_blockInstr (m : Mode) (s : State) : exec (blockInstr m) s = .next (blockCommand m s) := by
  cases m <;> rfl

/-- The stream command of a mode, as a meaning (R100). -/
theorem exec_streamInstr (m : Mode) (s : State) : exec (streamInstr m) s = streamCommand (streamInstr m) m s := by
  cases m <;> rfl

/-- An idle core's micro-step is nothing (R132). -/
theorem microStep_idle {s : State} (h : s.eng = .idle) : microStep s = .next s := by
  unfold microStep; rw [h]

/-- A running block command's micro-step (R93). -/
theorem microStep_block {s : State} {m : Mode} {pos : BlockPos} (h : s.eng = .busy (blockInstr m) pos) :
    microStep s = .next (blockMicro (blockInstr m) m pos s) := by
  unfold microStep; rw [h]; cases m <;> rfl

/-- A running stream command's micro-step (R104). -/
theorem microStep_stream {s : State} {m : Mode} {pos : BlockPos} (h : s.eng = .busy (streamInstr m) pos) :
    microStep s = streamMicro (streamInstr m) m pos s := by
  unfold microStep; rw [h]; cases m <;> rfl

/-- A run of micro-steps begins with its first. -/
theorem microRun_next {s t : State} {n : Nat} (h : microStep s = .next t) : microRun (n + 1) s = microRun n t := by
  simp only [microRun, h]

/-- A state whose micro-step changes nothing stays. -/
theorem microRun_stays {s : State} (h : microStep s = .next s) (n : Nat) : microRun n s = .next s := by
  induction n with
  | zero => rfl
  | succ n ih => rw [microRun_next h, ih]

/-- A run that reaches an idle core in its first micro-step ends there. -/
theorem microRun_ends {s t : State} {n : Nat} (h : microStep s = .next t) (ht : t.eng = .idle) (hn : 1 ≤ n) :
    microRun n s = .next t := by
  obtain ⟨n, rfl⟩ : ∃ k, n = k + 1 := ⟨n - 1, by omega⟩
  rw [microRun_next h, microRun_stays (microStep_idle ht)]

/-- RND counts the rounds (R93). -/
theorem engineRounds_rnd (p : Params) (rk : Schedule) (n : Nat) (e : BlockEngine) (h : e.rnd.toNat + n ≤ 32) :
    (engineRounds p rk n e).rnd.toNat = e.rnd.toNat + n := by
  induction n generalizing e with
  | zero => rfl
  | succ n ih =>
    have h' : (engineRound p rk e).rnd.toNat = e.rnd.toNat + 1 := by
      show (e.rnd + 1).toNat = _
      rw [BitVec.toNat_add]
      show (e.rnd.toNat + 1) % 2 ^ 6 = _
      omega
    show (engineRounds p rk n (engineRound p rk e)).rnd.toNat = _
    rw [ih _ (by omega), h']
    omega

/-- What no step of a command writes: the parameters, the host's moves, and the operand record. -/
structure Keeps (s t : State) : Prop where
  par : t.par = s.par
  script : t.host.script = s.host.script
  ops : t.host.ops = s.host.ops

theorem Keeps.trans {a b c : State} (h : Keeps a b) (g : Keeps b c) : Keeps a c :=
  ⟨g.par.trans h.par, g.script.trans h.script, g.ops.trans h.ops⟩

theorem readStep_keeps (s : State) : Keeps s s.readStep := by
  rcases readStep_cases s with ⟨_, _, e⟩ | ⟨_, _, _, e⟩ | ⟨_, _, e⟩ <;> rw [e] <;> exact ⟨rfl, rfl, rfl⟩

theorem writeStep_keeps (s : State) : Keeps s s.writeStep := by
  rcases writeStep_cases s with ⟨_, _, e⟩ | ⟨_, _, _, e⟩ | ⟨_, _, e⟩ <;> rw [e] <;> exact ⟨rfl, rfl, rfl⟩

theorem keyLoadStep_keeps {s t : State} {i : Instr} {m : Mode} (h : s.keyLoadStep i m = .next t) : Keeps s t := by
  rcases keyLoadStep_cases s i m with ⟨_, e⟩ | ⟨_, _, e⟩ | ⟨_, _, e⟩ <;> rw [e] at h
  · rw [← next_inj h]; exact ⟨rfl, rfl, rfl⟩
  · cases h
  · rw [← next_inj h]; exact ⟨rfl, rfl, rfl⟩

theorem execKeyx_keeps {s t : State} (h : execKeyx s = .next t) : Keeps s t := by
  rcases execKeyx_cases s with ⟨_, e⟩ | ⟨_, e⟩ <;> rw [← next_inj (e.symm.trans h)] <;> exact ⟨rfl, rfl, rfl⟩

theorem blockMicro_keeps (i : Instr) (m : Mode) (pos : BlockPos) (s : State) : Keeps s (blockMicro i m pos s) := by
  unfold blockMicro
  cases pos with
  | check =>
    simp only
    split
    · exact ⟨rfl, rfl, rfl⟩
    · split <;> exact ⟨rfl, rfl, rfl⟩
  | load => exact ⟨rfl, rfl, rfl⟩
  | run =>
    simp only
    split <;> exact ⟨rfl, rfl, rfl⟩

theorem xformMicro_keeps (i : Instr) (m : Mode) (pos : BlockPos) (s : State) : Keeps s (xformMicro i m pos s) := by
  unfold xformMicro
  cases pos with
  | check => exact ⟨rfl, rfl, rfl⟩
  | load => exact ⟨rfl, rfl, rfl⟩
  | run =>
    simp only
    split <;> exact ⟨rfl, rfl, rfl⟩

theorem streamMicro_keeps {i : Instr} {m : Mode} {pos : BlockPos} {s t : State} (h : streamMicro i m pos s = .next t) :
    Keeps s t := by
  unfold streamMicro at h
  cases hp : s.fp.phase <;> rw [hp] at h <;> simp only at h
  · exact keyLoadStep_keeps h
  · rw [← next_inj h]; exact readStep_keeps s
  · rw [← next_inj h]; exact xformMicro_keeps i m pos s
  · rw [← next_inj h]; exact writeStep_keeps s
  · rw [← next_inj h]; exact ⟨rfl, rfl, rfl⟩

theorem streamLoop_keeps (m : Mode) (n : Nat) (s : State) : Keeps s (State.streamLoop m n s) := by
  have turn : ∀ t, Keeps s t → Keeps s (t.readStep.xformStep m).writeStep := fun t h =>
    ((h.trans (readStep_keeps t)).trans (show Keeps t.readStep (t.readStep.xformStep m) from ⟨rfl, rfl, rfl⟩)).trans
      (writeStep_keeps _)
  refine streamLoop_induction (m := m) (P := Keeps s) (Q := Keeps s) (fun t h => h) (fun t h _ _ => h.trans (readStep_keeps t))
    (fun t h _ => (h.trans (readStep_keeps t)).trans ?_) (fun t h _ _ => turn t h) (fun t h _ _ => turn t h) n s ⟨rfl, rfl, rfl⟩
  exact ⟨rfl, rfl, rfl⟩

end Sys2Proof.Machine
end

