-- ==== Sys2Proof/Laws/PerInstr.lean ====
section
/-!
SUPPORT. One lemma for each command about its encoding (30_encoding R58-R62), for statements over all commands.
-/

namespace Sys2Proof.Laws.Encoding

/-- The command is well formed, its word's fields are its own, exactly one row of the opcode map hits the word, and the word decodes
to the command. -/
def Statement (i : Instr) : Prop :=
  i.wellFormed = true ∧ fieldsOf (encode i) = i.fields ∧
    (opcodeTable.filter fun r => r.hits (encode i)).map (·.instr) = [i] ∧ decode (encode i) = some i

theorem keyx : Statement .keyx := by unfold Statement; decide

theorem gf : Statement .gf := by unfold Statement; decide

theorem encb : Statement .encb := by unfold Statement; decide

theorem decb : Statement .decb := by unfold Statement; decide

theorem pse : Statement .pse := by unfold Statement; decide

theorem psd : Statement .psd := by unfold Statement; decide

end Sys2Proof.Laws.Encoding
end

