-- ==== Sys2Proof/Laws/Words.lean ====
section
/-!
SUPPORT. Bytes, halves and nibbles of words: the two directions of the byte order agree (20_memory R44, R45), the rotation is
inverted by the rest of the turn, and a word is its eight nibbles.
-/

namespace Sys2Proof.Machine

/-- `rotl32` is rotation to the left (00_scope R14). -/
theorem rotl32_eq_rotateLeft (v : Word) (n : Nat) (h : n < 32) : rotl32 v n = v.rotateLeft n := by
  simp [rotl32, BitVec.rotateLeft, BitVec.rotateLeftAux, Nat.mod_eq_of_lt h]

/-- Bit i of a rotated word is bit i - n, counted round the word. -/
theorem getLsbD_rotl32 (v : Word) (n i : Nat) (h : n < 32) :
    (rotl32 v n).getLsbD i = if i < n then v.getLsbD (32 - n + i) else (decide (i < 32) && v.getLsbD (i - n)) := by
  rw [rotl32_eq_rotateLeft v n h, BitVec.getLsbD_rotateLeft]
  simp [Nat.mod_eq_of_lt h]

/-- Two rotations that add up to a whole turn cancel. -/
theorem rotl32_rotl32_cancel (v : Word) (m n : Nat) (hm : m < 32) (hn : n < 32) (h : m + n = 32) :
    rotl32 (rotl32 v m) n = v := by
  apply BitVec.eq_of_getLsbD_eq
  intro i hi
  rw [getLsbD_rotl32 _ _ _ hn, getLsbD_rotl32 _ _ _ hm, getLsbD_rotl32 _ _ _ hm]
  by_cases hin : i < n
  · have h1 : ¬ 32 - n + i < m := by omega
    have h2 : 32 - n + i < 32 := by omega
    simp only [hin, if_true, h1, if_false, h2, decide_true, Bool.true_and]
    congr 1; omega
  · have h1 : i - n < m := by omega
    simp only [hin, if_false, h1, if_true, hi, decide_true, Bool.true_and]
    congr 1; omega

/-- The big-endian bytes of a word put together are the word (R15). -/
theorem be32_byteBE (w : Word) : be32 (byteBE w 0) (byteBE w 1) (byteBE w 2) (byteBE w 3) = w := by
  apply BitVec.eq_of_getLsbD_eq
  intro i hi
  simp only [be32, byteBE, BitVec.getLsbD_append, BitVec.getLsbD_extractLsb']
  interval_cases i <;> rfl

/-- The bytes of a word put together from bytes are those bytes (R15). -/
theorem byteBE_be32 (b0 b1 b2 b3 : Byte) :
    byteBE (be32 b0 b1 b2 b3) 0 = b0 ∧ byteBE (be32 b0 b1 b2 b3) 1 = b1 ∧
      byteBE (be32 b0 b1 b2 b3) 2 = b2 ∧ byteBE (be32 b0 b1 b2 b3) 3 = b3 := by
  refine ⟨?_, ?_, ?_, ?_⟩ <;>
  · apply BitVec.eq_of_getLsbD_eq
    intro i hi
    simp only [be32, byteBE, BitVec.getLsbD_append, BitVec.getLsbD_extractLsb']
    interval_cases i <;> rfl

@[simp] theorem leftHalf_blockOfHalves (hi lo : Word) : leftHalf (blockOfHalves hi lo) = hi := be32_byteBE hi

@[simp] theorem rightHalf_blockOfHalves (hi lo : Word) : rightHalf (blockOfHalves hi lo) = lo := be32_byteBE lo

/-- A block is its two halves (R45). -/
@[simp] theorem blockOfHalves_halves (b : Block) : blockOfHalves (leftHalf b) (rightHalf b) = b := by
  obtain ⟨h0, h1, h2, h3⟩ := byteBE_be32 b[0] b[1] b[2] b[3]
  obtain ⟨h4, h5, h6, h7⟩ := byteBE_be32 b[4] b[5] b[6] b[7]
  apply Vector.ext
  intro i hi
  simp only [blockOfHalves, leftHalf, rightHalf, h0, h1, h2, h3, h4, h5, h6, h7]
  interval_cases i <;> rfl

/-- A block's bytes as a list, made a block again, are the block. -/
@[simp] theorem blockOfBytes_toList (b : Block) : blockOfBytes b.toList = b := by
  apply Vector.ext
  intro i hi
  simp [blockOfBytes]

/-- Eight bytes are the bytes of their block. -/
theorem toList_blockOfBytes (bs : List Byte) (h : bs.length = 8) : (blockOfBytes bs).toList = bs := by
  apply List.ext_getElem
  · simp [h]
  · intro i h1 h2
    simp [blockOfBytes, List.getD_eq_getElem?_getD, h2]

/-- Fewer than eight bytes are padded on the right with zeros (R103). -/
theorem toList_blockOfBytes_pad (bs : List Byte) (h : bs.length ≤ 8) :
    (blockOfBytes bs).toList = bs ++ List.replicate (8 - bs.length) 0 := by
  apply List.ext_getElem
  · simp; omega
  · intro i h1 h2
    simp only [blockOfBytes, Vector.getElem_toList, Vector.getElem_ofFn, List.getD_eq_getElem?_getD]
    by_cases hi : i < bs.length
    · simp [hi]
    · rw [List.getElem_append_right (by omega)]
      simp [hi]

/-- A word is its eight nibbles (R13). -/
theorem word_ext_nibbles (x y : Word) (h : ∀ i : Fin 8, nibble x i = nibble y i) : x = y := by
  apply BitVec.eq_of_getLsbD_eq
  intro i hi
  have := congrArg (fun v => v.getLsbD (i % 4)) (h ⟨i / 4, by omega⟩)
  simp only [nibble, BitVec.getLsbD_extractLsb'] at this
  have h4 : i % 4 < 4 := Nat.mod_lt _ (by omega)
  have hi' : 4 * (i / 4) + i % 4 = i := Nat.div_add_mod i 4
  simpa [h4, hi'] using this

/-- The fields of a ROM index are the row and the column it was made of (R39). -/
theorem romIndex_fields : ∀ (row : Fin 8) (col : Fin 16),
    ((romIndex row (BitVec.ofFin col)).extractLsb' 4 3).toNat = row.val ∧
      (romIndex row (BitVec.ofFin col)).extractLsb' 0 4 = BitVec.ofFin col := by decide

/-- The ROM read by index is the ROM read by row and column (R39). -/
theorem romAt_romIndex (t : SBox) (row : Fin 8) (col : Nibble) : romAt t (romIndex row col) = romRead t row col := by
  obtain ⟨hr, hc⟩ := romIndex_fields row col.toFin
  have hrow : (⟨((romIndex row col).extractLsb' 4 3).toNat, ((romIndex row col).extractLsb' 4 3).isLt⟩ : Fin 8) = row :=
    Fin.ext hr
  have hcol : (romIndex row col).extractLsb' 0 4 = col := hc
  unfold romAt
  rw [hrow, hcol]

end Sys2Proof.Machine
end

