-- ==== Sys2Proof/Tests/Slice0.lean ====
section
/-!
SUPPORT. The model's own tests, with expected results from spec/95_test_vectors.md and the worked examples of the rules, the smoke tests
of WellFormed, and for every statement with hypotheses a concrete state and operands that meet them.
-/

namespace Sys2Proof.Tests

open Sys2Proof.Machine

/-! ## Small states -/

/-- `bytes(i..j)` (R67). -/
def bytes (i j : Nat) : List Byte := (List.range (j - i)).map fun n => BitVec.ofNat 8 (i + n)

/-- The n bytes of a number, most significant first. -/
def bytesOf (n v : Nat) : List Byte := (List.range n).map fun i => BitVec.ofNat 8 (v >>> (8 * (n - 1 - i)))

/-- The 8-byte block of a number. -/
def blockOf (v : Nat) : Block := blockOfBytes (bytesOf 8 v)

/-- The key of the spec's vectors: `bytes(0..32)`. -/
def key : List Byte := bytes 0 32

/-- The source text a"ABCDEFGHIJKL" of the vectors, 12 bytes. -/
def text : List Byte := bytes 0x41 0x4D

/-- After reset, with an operand record at the port. -/
def withRecord (ops : OperandRecord) : State := State.reset.withOps ops

/-- The same with the vectors' schedule loaded. -/
def keyed (ops : OperandRecord) : State := { withRecord ops with rk := keySchedule key, rkValid := true }

/-- The other order of G (R12). -/
def subThenRot (s : State) : State := { s with par := { s.par with gOrder := .subThenRot } }

/-- A finite stream bound (R12). -/
def bounded (n : Nat) (s : State) : State := { s with par := { s.par with maxStream := some n } }

/-- A GF record. -/
def words (a k : Word) : OperandRecord := { OperandRecord.empty with a := a, k := k }

/-- A KEYX record. -/
def keyOf (k : List Byte) : OperandRecord := { OperandRecord.empty with key := k }

/-- A block record. -/
def blkOf (b : List Byte) : OperandRecord := { OperandRecord.empty with blk := b }

/-- A stream record under the vectors' key: the source's bytes, its answers, the sink's answers. -/
def streamOf (src : List Byte) (reads writes : List Answer) : OperandRecord :=
  { OperandRecord.empty with key := key, src := { bytes := src, answers := reads }, snk := writes }

/-- After reset, with these moves of the host to come. -/
def scripted (moves : List HostMove) : State := State.reset.withScript moves

/-- A command with an empty record. -/
def plain (w : Word) : Command := { cmd := w, ops := OperandRecord.empty }

/-- A stream in flight between its first write and its second read: 9 source bytes, 8 read, one block accepted. -/
def midStream (moves : List HostMove) : State :=
  { State.reset with
    rk := keySchedule key
    fp := { FileProc.reset with phase := .read, inPos := 8, outPos := 8 }
    eng := .busy .pse .load
    host := { HostSide.reset with
      script := moves, ops := streamOf (bytes 0 9) [] [], src := { bytes := [8], answers := [] }, snk := bytesOf 8 0 } }

/-- Whether an outcome is a next state with a property. -/
def nextHas (p : State → Bool) : Host.Outcome State Fault Refusal → Bool
  | .next t => p t
  | .fault _ => false
  | .refused _ => false

/-- Whether an outcome is the given fault. -/
def isFault (f : Fault) : Host.Outcome State Fault Refusal → Bool
  | .next _ => false
  | .fault r => r == f
  | .refused _ => false

/-- An outcome that is a next state with a property, as an existence. -/
theorem exists_of_nextHas {p : State → Bool} {o : Host.Outcome State Fault Refusal} (h : nextHas p o = true) :
    ∃ t, o = .next t ∧ p t = true := by
  cases o with
  | next t => exact ⟨t, rfl, h⟩
  | fault r => cases h
  | refused r => cases h

/-- With no bound every source fits (R113). -/
theorem fits_unbounded {p : Params} (h : p.maxStream = none) (ops : OperandRecord) : StreamFits p ops := by
  intro n hn
  rw [h] at hn
  cases hn

/-- A host with no answer listed serves every request (R106). -/
theorem serves_unlisted (src : List Byte) : HostServes (streamOf src [] []) :=
  ⟨fun _ h => absurd h List.not_mem_nil, fun _ h => absurd h List.not_mem_nil⟩

/-! ## WellFormed: each check refuses a term that breaks it -/

/-- R58: a set reserved bit. -/
theorem test_wf_reserved : CmdFields.legal { reserved := 1, fn := 3, m := 0 } = false := by decide

/-- R59: FN 0, FN 5, FN 127. -/
theorem test_wf_fn :
    CmdFields.legal { reserved := 0, fn := 0, m := 0 } = false ∧ CmdFields.legal { reserved := 0, fn := 5, m := 0 } = false ∧
      CmdFields.legal { reserved := 0, fn := 127, m := 1 } = false := by decide

/-- R60: M = 1 with FN 1 and FN 2. -/
theorem test_wf_mode :
    CmdFields.legal { reserved := 0, fn := 1, m := 1 } = false ∧ CmdFields.legal { reserved := 0, fn := 2, m := 1 } = false ∧
      CmdFields.legal { reserved := 0, fn := 3, m := 1 } = true ∧ CmdFields.legal { reserved := 0, fn := 4, m := 1 } = true := by
  decide

/-- A table whose row 0 holds C twice and 4 never. -/
def badTable : SBox := Config.sboxTable.set 0 (Config.sboxTable[0].set 1 0xC)

/-- R74: a row that is no permutation is refused, in a table and in the parameters. -/
theorem test_wf_table :
    SBox.rowOk badTable[0] = false ∧ badTable.wellFormed = false ∧
      Params.wellFormed { Config.params with sbox := badTable } = false ∧ Config.params.wellFormed = true := by decide

/-- R39, I7: a row of 8 and a column of 16. -/
theorem test_wf_rom_index :
    romIndexOk 8 0 = false ∧ romIndexOk 0 16 = false ∧ romIndexOk 7 15 = true := by decide

/-! ## Decoding: words written out bit by bit from R58 and R61 -/

/-- KEYX: reserved 0, FN 1, M 0. -/
theorem test_decode_keyx : decode ((0 : BitVec 24) ++ 0b0000001#7 ++ 0#1) = some .keyx := by decide

/-- GF: FN 2, M 0. -/
theorem test_decode_gf : decode 0b00000000000000000000000000000100 = some .gf := by decide

/-- ENCB: FN 3, M 0. -/
theorem test_decode_encb : decode 0b00000000000000000000000000000110 = some .encb := by decide

/-- DECB: FN 3, M 1. -/
theorem test_decode_decb : decode 0b00000000000000000000000000000111 = some .decb := by decide

/-- PSE: FN 4, M 0. -/
theorem test_decode_pse : decode 0b00000000000000000000000000001000 = some .pse := by decide

/-- PSD: FN 4, M 1. -/
theorem test_decode_psd : decode 0b00000000000000000000000000001001 = some .psd := by decide

/-- 95_test_vectors section 2.6: the illegal words. -/
theorem test_decode_illegal :
    ([0x0, 0x1, 0x3, 0x5, 0xA, 0xFF, 0x102, 0x80000006, 0xFFFFFFFF] : List Word).all (fun w => decode w == none) = true := by
  decide

/-- The numbering of the opcode table, and a number above the word. -/
theorem test_decode_table_word :
    decodeTableWord 32 9 = some .psd ∧ decodeTableWord 32 (2 ^ 32 + 9) = none ∧ encode .decb = 0x00000007 := by decide

/-! ## The S-box, G and the schedule -/

/-- X2, X3, X6, X8 of section 2.1. -/
theorem test_subst :
    romRead Config.sboxTable 7 0xF = 0x2 ∧ romRead Config.sboxTable 3 0x9 = 0x0 ∧
      subst Config.sboxTable 0x01234567 = 0x1EFADF59 ∧ subst Config.sboxTable 0xFDB97531 = 0x2A196F34 := by decide

/-- The standard's published block vector (section 1.2), which holds under `SUB_THEN_ROT`. -/
theorem test_standard_vector :
    encryptCore { Config.params with gOrder := .subThenRot }
        (keySchedule (bytesOf 32 0xffeeddccbbaa99887766554433221100f0f1f2f3f4f5f6f7f8f9fafbfcfdfeff)) (blockOf 0xfedcba9876543210) =
      blockOf 0x4ee901e5c2d8ca3d := by decide +kernel

/-! ## One step of each command -/

/-- K6: RK[0], RK[7], RK[24], RK[31], and RK_VALID. -/
theorem test_keyx_loads :
    nextHas (fun t => t.rk[0] == 0x00010203 && t.rk[7] == 0x1C1D1E1F && t.rk[24] == 0x1C1D1E1F && t.rk[31] == 0x00010203 &&
      t.rkValid && t.status == 0) (exec .keyx (withRecord (keyOf key))) = true := by decide +kernel

/-- K10: a failing KEYX leaves the file and its validity bit as they were. -/
theorem test_keyx_short_key :
    nextHas (fun t => t.status == 1 && t.rkValid && t.rk[31] == 0x00010203) (exec .keyx (keyed (keyOf (bytes 0 31)))) = true := by
  decide +kernel

/-- G5, with no key loaded. -/
theorem test_gf : nextHas (fun t => t.res == 0x17E43C36 && t.status == 0) (exec .gf (withRecord (words 0xFEDCBA98 0x87654321))) = true := by
  decide

/-- G2 under both orders: the sum wraps to 0. -/
theorem test_gf_wraps :
    nextHas (fun t => t.res == 0x1857CB6C) (exec .gf (withRecord (words 0xFFFFFFFF 1))) = true ∧
      nextHas (fun t => t.res == 0xBE5B60C2) (exec .gf (subThenRot (withRecord (words 0xFFFFFFFF 1)))) = true := by decide

/-- B1, ENCB. -/
theorem test_encb :
    nextHas (fun t => t.blkout == blockOf 0x98d8e80e873a84b7 && t.status == 0) (exec .encb (keyed (blkOf (bytesOf 8 0x4142434445464748))))
      = true := by decide +kernel

/-- B11: the length check comes before NoRoundKeys. -/
theorem test_encb_short_block : nextHas (fun t => t.status == 2) (exec .encb (withRecord (blkOf (bytesOf 7 0)))) = true := by
  decide

/-- B1, DECB. -/
theorem test_decb :
    nextHas (fun t => t.blkout == blockOf 0x6a89836bbf80a7a7 && t.status == 0) (exec .decb (keyed (blkOf (bytesOf 8 0x4142434445464748))))
      = true := by decide +kernel

/-- B10 for DECB: no schedule. -/
theorem test_decb_no_keys : nextHas (fun t => t.status == 5) (exec .decb (withRecord (blkOf (bytesOf 8 0)))) = true := by decide

/-- S5: 12 bytes give 16. -/
theorem test_pse :
    nextHas (fun t => t.host.snk == bytesOf 16 0x98d8e80e873a84b7b10e2700f4b9bed1 && t.status == 0 && !t.rkValid)
      (exec .pse (withRecord (streamOf text [] []))) = true := by decide +kernel

/-- Program 4, line 1: the second write fails with a value, which is passed through. -/
theorem test_pse_write_fails :
    nextHas (fun t => t.status == 0xB && t.host.resps == [{ status := 0xB, result := .none, ioInfo := some 77 }] && t.fp.outPos == 8)
      (exec .pse (withRecord (streamOf text [] [.ok, .fail 77]))) = true := by decide

/-- S11: PSD pads too. -/
theorem test_psd :
    nextHas (fun t => t.host.snk == bytesOf 8 0x50fecd76c77517d7 && t.status == 0)
      (exec .psd (withRecord (streamOf (bytesOf 5 0x48656c6c6f) [] []))) = true := by decide +kernel

/-- Program 4, line 2: the second read fails; the sink holds block 0, complete. -/
theorem test_psd_read_fails :
    nextHas (fun t => t.status == 3 && t.host.snk == bytesOf 8 0x4142434445464748)
      (exec .psd (withRecord (streamOf (bytesOf 16 0x98d8e80e873a84b7b10e2700f4b9bed1) [.ok, .fail 5] []))) = true := by decide +kernel

/-! ## One step of the machine -/

/-- A placed word is fetched and run first after reset: GF of 0 and 0 gives X9's value. -/
theorem test_placed_word : nextHas (fun t => t.res == 0x1857CB6C) (step (State.reset.withFetchWord 32 4)) = true := by decide

/-- Section 2.6: `.word 0x00000003` with a 31-byte KEY reports 4, not 1. -/
theorem test_illegal_word :
    nextHas (fun t => t.status == 4) (step (scripted [.issue { cmd := 3, ops := keyOf (bytes 0 31) }])) = true := by decide

/-- R-3: reset after the first accepted block: no response, block 0 complete, STATUS 0. -/
theorem test_reset_mid_stream :
    nextHas (fun t => t.host.resps == [] && t.host.snk.length == 8 && t.status == 0 && t.eng == .idle) (step (midStream [.reset])) = true := by
  decide

/-- R106, "command end": the host truncates or discards its sink; a cut that stands in mid-stream takes nothing from the sink (R138). -/
theorem test_cut_sink :
    nextHas (fun t => t.host.snk == [0, 0, 0]) (step { midStream [.cutSink 3] with eng := .idle }) = true ∧
      nextHas (fun t => t.host.snk == []) (step { midStream [.cutSink 0] with eng := .idle }) = true ∧
      nextHas (fun t => t.host.snk == bytesOf 8 0 && t.host.script == [.cutSink 3]) (step (midStream [.cutSink 3])) = true := by decide

/-- R37: RES after reset holds nothing to read. -/
theorem test_read_unwritten_res : isFault (.readWithoutValue .res) (step (scripted [.read .res])) = true := by
  decide

/-! ## Text -/

/-- R67's example and Program 1, line 4. -/
theorem test_assemble :
    assemble "keyx bytes(0..32)".toList = some { cmd := 0x00000002, ops := keyOf key } ∧
      assemble "gf 0xFEDCBA98, 0x87654321".toList = some { cmd := 0x00000004, ops := words 0xFEDCBA98 0x87654321 } := by decide

/-- A stream line, an escaped byte, and a line that is none of the seven forms. -/
theorem test_assemble_stream :
    assemble "pse bytes(0..32), src(a\"AB\\x00\"), snk(o)".toList =
        some { cmd := 0x00000008, ops := streamOf [0x41, 0x42, 0] [] [] } ∧
      assemble "xor 1, 2".toList = none ∧ assemble "encb h\"123\"".toList = none := by decide

/-- R69: the words of section 2.6. -/
theorem test_disassemble :
    disassemble 6 = { text := "ENCB".toList, illegal := false } ∧
      disassemble 0x80000006 = { text := ".word 0x80000006".toList, illegal := true } := by decide

/-! ## Witnesses: a state and operands that meet the hypotheses of each statement -/

theorem witness_OnlyTheSixWordsDecode :
    (0xA : Word) ∉ ([0x00000002, 0x00000004, 0x00000006, 0x00000007, 0x00000008, 0x00000009] : List Word) := by decide

theorem witness_EncodeIsTheOnlyWord : decode 0x00000002 = some .keyx := by decide

/-- FN 0, 5 and 127, M = 1 with FN 1 and 2, bits 8 and 31; and an illegal word issued to, and started on, an idle core. -/
theorem witness_IllegalWordsWriteOnlyStatus :
    (fieldsOf 0x1).fn = 0 ∧ (fieldsOf 0xA).fn = 5 ∧ (fieldsOf 0xFF).fn = 127 ∧ (fieldsOf 0x3).fn = 1 ∧ (fieldsOf 0x3).m = 1 ∧
      (fieldsOf 0x5).fn = 2 ∧ (fieldsOf 0x5).m = 1 ∧ (fieldsOf 0x102).reserved = 1 ∧ (fieldsOf 0x80000006).reserved ≠ 0 ∧
      (scripted [.issue (plain 3)]).par.wellFormed = true ∧ (scripted [.issue (plain 3)]).eng = .idle ∧
      (scripted [.issue (plain 3)]).host.script = .issue (plain 3) :: [] ∧ (scripted [.start (plain 3)]).eng = .idle ∧
      (scripted [.start (plain 3)]).host.script = .start (plain 3) :: [] ∧ decode (plain 3).cmd = none := by decide

theorem witness_DisassemblyReassembles : decode 9 = some .psd ∧ decode 0 = none := by decide

theorem witness_StepRunsTheDecodedCommand :
    (scripted [.issue (plain 4)]).par.wellFormed = true ∧ (scripted [.issue (plain 4)]).eng = .idle ∧
      (scripted [.issue (plain 4)]).host.script = .issue (plain 4) :: [] ∧ decode (plain 4).cmd = some .gf := by decide

theorem witness_PlacedWordIsRunNext :
    State.reset.par.wellFormed = true ∧ 9 < 2 ^ 32 ∧ decodeTableWord 32 9 = some .psd := by decide

theorem witness_StartedCommandMakesTheCoreBusy :
    (scripted [.start (plain 8)]).par.wellFormed = true ∧ (scripted [.start (plain 8)]).eng = .idle ∧
      (scripted [.start (plain 8)]).host.script = .start (plain 8) :: [] ∧ decode (plain 8).cmd = some .pse := by decide

theorem witness_BusyCoreHoldsCommands :
    (midStream [.issue (plain 2)]).par.wellFormed = true ∧ (midStream [.issue (plain 2)]).eng = .busy .pse .load ∧
      (midStream [.issue (plain 2)]).host.script = .issue (plain 2) :: [] ∧
      (midStream [.start (plain 2)]).host.script = .start (plain 2) :: [] ∧
      nextHas (fun _ => true) (step (midStream [.issue (plain 2)])) = true := by decide

theorem witness_IdleCoreWaits :
    State.reset.par.wellFormed = true ∧ State.reset.eng = .idle ∧ State.reset.host.script = [] := by decide

/-- Each port, RES and BLKOUT both with and without a value. -/
theorem witness_PortReadsShowRegisters :
    (scripted [.read .status]).par.wellFormed = true ∧ (scripted [.read .status]).host.script = .read .status :: [] ∧
      (scripted [.read .eng]).host.script = .read .eng :: [] ∧ (scripted [.read .res]).host.script = .read .res :: [] ∧
      (scripted [.read .res]).resHeld = false ∧ (scripted [.read .blkout]).blkHeld = false ∧
      nextHas (fun t => t.resHeld) (exec .gf (scripted [.read .res])) = true ∧
      nextHas (fun t => t.blkHeld) (exec .encb (keyed (blkOf (bytesOf 8 0)))) = true := by decide

/-- A row without one nibble; indices on both sides of each bound. -/
theorem witness_BadTableAndBadIndexRefused :
    (∀ c : Nibble, romRead badTable 0 c ≠ 0x4) ∧ romRead? Config.sboxTable 7 15 = some 0x2 ∧
      romRead? Config.sboxTable 8 0 = none ∧ romRead? Config.sboxTable 0 16 = none := by decide

theorem witness_ResetIsTakenWhateverRuns :
    (midStream [.reset]).par.wellFormed = true ∧ (midStream [.reset]).host.script = .reset :: [] := by decide

/-- The stream in flight meets the invariant. -/
theorem midStream_sound (moves : List HostMove) : Sound (midStream moves) where
  status := by
    show StatusLegal 0
    unfold StatusLegal
    decide
  rnd := by
    show (0 : BitVec 6) ≤ 32
    decide
  outPos := by
    show 8 ∣ 8
    exact Nat.dvd_refl 8
  inPos := fun n h => by cases h
  keys := fun h => by cases h
  stream := fun _ _ _ _ _ =>
    { keyLength := by
        show key.length = 32
        decide
      schedule := rfl
      delivered := by
        show [8] = (bytes 0 9).drop 8
        decide
      inRange := by
        show 8 ≤ (bytes 0 9).length
        decide
      accepted := by
        show (bytesOf 8 0).length = 8
        decide
      fits := fun n h => by cases h }

theorem witness_ResetInMidStreamKeepsAcceptedBlocks :
    Sound (midStream [.reset]) ∧ (midStream [.reset]).par.wellFormed = true ∧ (midStream [.reset]).eng = .busy .pse .load ∧
      isStream .pse = true ∧ (midStream [.reset]).fp.phase ≠ .keyload ∧ (midStream [.reset]).host.script = .reset :: [] :=
  ⟨midStream_sound _, by decide⟩

theorem witness_SubstIsBijective : Config.sboxTable.wellFormed = true := by decide

theorem witness_RoundFunctionIsBijective :
    Config.params.wellFormed = true ∧ Params.wellFormed { Config.params with gOrder := .subThenRot } = true := by decide

theorem witness_RoundFunctionDependsOnTheSum :
    ((0xFFFFFFFF : Word).toNat + (1 : Word).toNat) % 2 ^ 32 = ((0 : Word).toNat + (0 : Word).toNat) % 2 ^ 32 := by decide

theorem witness_GfWritesTheRoundFunction :
    State.reset.par.gOrder = .rotThenSub ∧ (subThenRot State.reset).par.gOrder = .subThenRot := by decide

theorem witness_RomIsObservableThroughGf :
    (withRecord (words 0xA63FB72E 0)).par.gOrder = .rotThenSub ∧ (withRecord (words 0xA63FB72E 0)).host.ops.a = rotl32 0xFDB97531 21 ∧
      (withRecord (words 0xA63FB72E 0)).host.ops.k = 0 ∧ (subThenRot (withRecord (words 7 0))).par.gOrder = .subThenRot ∧
      (subThenRot (withRecord (words 7 0))).host.ops.a = 7 := by decide

theorem witness_KeyxLoadsOrRejects :
    (withRecord (keyOf key)).host.ops.key.length = 32 ∧ (withRecord (keyOf (bytes 0 31))).host.ops.key.length ≠ 32 ∧
      (withRecord (keyOf (bytes 0 33))).host.ops.key.length ≠ 32 ∧ (withRecord (keyOf [])).host.ops.key.length ≠ 32 := by decide

theorem witness_ScheduleAfterKeyx : (withRecord (keyOf key)).host.ops.key.length = 32 := by decide

theorem witness_DecryptReadsTheScheduleBackwards : key.length = 32 := by decide

theorem witness_BlockCommandsTransform :
    (keyed (blkOf (bytesOf 8 0))).host.ops.blk.length = 8 ∧ (keyed (blkOf (bytesOf 8 0))).rkValid = true := by decide

theorem witness_BlockCommandErrors :
    (keyed (blkOf (bytesOf 7 0))).host.ops.blk.length ≠ 8 ∧ (keyed (blkOf (bytesOf 9 0))).host.ops.blk.length ≠ 8 ∧
      (withRecord (blkOf (bytesOf 8 0))).host.ops.blk.length = 8 ∧ (withRecord (blkOf (bytesOf 8 0))).rkValid = false := by
  decide

theorem witness_MicroStepsComputeTheTransform : (0 : Nat) ≤ 32 ∧ (32 : Nat) ≤ 32 := by decide

theorem witness_DecryptUndoesEncrypt : key.length = 32 := by decide

/-- Both ways round. -/
theorem witness_BlockCommandsUndoEachOther :
    (keyed (blkOf (blockOf 5).toList)).rkValid = true ∧ (keyed (blkOf (blockOf 5).toList)).host.ops.blk = (blockOf 5).toList ∧
      Mode.decrypt ≠ .encrypt ∧ nextHas (fun t => (blkOf t.blkout.toList).blk = t.blkout.toList) (exec .encb (keyed (blkOf (blockOf 5).toList))) = true := by
  decide +kernel

/-- The all-zero key, R97's example, and its schedule. -/
theorem witness_PalindromicScheduleMakesBothTheSame :
    (∀ (i : Nat) (h : i < 32), (Vector.replicate 32 (0 : Word))[i] = (Vector.replicate 32 (0 : Word))[31 - i]'(by omega)) ∧
      ∀ j, j < 4 → keyWord (List.replicate 32 0) (7 - j) = keyWord (List.replicate 32 0) j :=
  ⟨fun i h => by simp, by decide⟩

theorem witness_LastRoundWithoutSwap (p : Params) (rk : Schedule) (b : Block) :
    (∃ l r : Word, feistelRounds (roundG p) (rk.toList.take 31) (leftHalf b, rightHalf b) = (l, r)) ∧
      ∃ l r : Word, feistelRounds (roundG p) (rk.toList.reverse.take 31) (leftHalf b, rightHalf b) = (l, r) :=
  ⟨⟨_, _, rfl⟩, ⟨_, _, rfl⟩⟩

/-- A served stream of 12 bytes, unbounded and with the bound exactly 12. -/
theorem served_stream :
    (withRecord (streamOf text [.ok] [])).host.ops.key.length = 32 ∧
      StreamFits (withRecord (streamOf text [.ok] [])).par (withRecord (streamOf text [.ok] [])).host.ops ∧
      StreamFits (bounded 12 (withRecord (streamOf text [.ok] []))).par (withRecord (streamOf text [.ok] [])).host.ops ∧
      HostServes (withRecord (streamOf text [.ok] [])).host.ops := by
  refine ⟨by decide, fits_unbounded rfl _, fun n h => ?_, ?_, ?_⟩
  · have h12 : (12 : Nat) = n := Option.some.inj h
    subst h12
    show text.length ≤ 12
    decide
  · intro a h
    exact List.mem_singleton.mp h
  · intro a h
    cases h

theorem witness_StreamWritesEveryBlock :
    (withRecord (streamOf text [.ok] [])).host.ops.key.length = 32 ∧
      StreamFits (withRecord (streamOf text [.ok] [])).par (withRecord (streamOf text [.ok] [])).host.ops ∧
      HostServes (withRecord (streamOf text [.ok] [])).host.ops :=
  ⟨served_stream.1, served_stream.2.1, served_stream.2.2.2⟩

/-- One stream that succeeds although a failure stands behind its last request, and one with an empty source. -/
theorem witness_SuccessfulStreamsOutput :
    (∃ t, exec .pse (withRecord (streamOf text [.ok, .ok, .ok, .fail 1] [])) = .next t ∧
      (t.eng == .idle && statusCode t.status == 0) = true) ∧
      ∃ t, exec .psd (withRecord (streamOf [] [] [])) = .next t ∧ (t.eng == .idle && statusCode t.status == 0) = true :=
  ⟨exists_of_nextHas (by decide), exists_of_nextHas (by decide)⟩

theorem witness_StreamRequestsInOrder :
    (withRecord (streamOf text [.ok] [])).host.ops.key.length = 32 ∧
      StreamFits (withRecord (streamOf text [.ok] [])).par (withRecord (streamOf text [.ok] [])).host.ops ∧
      HostServes (withRecord (streamOf text [.ok] [])).host.ops ∧ 1 < chunkCount text.length :=
  ⟨served_stream.1, served_stream.2.1, served_stream.2.2.2, by decide⟩

theorem witness_StreamRejectsKeyBeforeAnyRequest :
    (withRecord (keyOf (bytes 0 31))).host.ops.key.length ≠ 32 ∧ (withRecord (keyOf (bytes 0 33))).host.ops.key.length ≠ 32 := by
  decide

/-- The first read fails, and the last one (which would have delivered nothing). -/
theorem witness_ReadFailureEndsTheStream :
    (0 ≤ chunkCount text.length ∧ (streamOf text [.fail 9] []).src.answers = List.replicate 0 .ok ++ .fail 9 :: []) ∧
      (2 ≤ chunkCount text.length ∧ (streamOf text [.ok, .ok, .fail 9] []).src.answers = List.replicate 2 .ok ++ .fail 9 :: []) ∧
      (∀ a ∈ (streamOf text [.ok, .ok, .fail 9] [.ok]).snk.take 2, a = .ok) ∧ (streamOf text [] []).key.length = 32 ∧
      StreamFits State.reset.par (streamOf text [.ok, .ok, .fail 9] []) :=
  ⟨by decide, by decide, by decide, by decide, fits_unbounded rfl _⟩

/-- The first write fails, and the last one. -/
theorem witness_WriteFailureEndsTheStream :
    (0 < chunkCount text.length ∧ (streamOf text [] [.fail 9]).snk = List.replicate 0 .ok ++ .fail 9 :: []) ∧
      (1 < chunkCount text.length ∧ (streamOf text [] [.ok, .fail 9]).snk = List.replicate 1 .ok ++ .fail 9 :: []) ∧
      (∀ a ∈ (streamOf text [.ok, .ok] [.ok, .fail 9]).src.answers.take 2, a = .ok) ∧ (streamOf text [] []).key.length = 32 ∧
      StreamFits State.reset.par (streamOf text [] [.ok, .fail 9]) :=
  ⟨by decide, by decide, by decide, by decide, fits_unbounded rfl _⟩

/-- A stream that ends well, one that ends with a failed read, and a block of 8 bytes after it. -/
theorem witness_StreamDiscardsItsSchedule :
    (∃ t, exec .pse (withRecord (streamOf text [] [])) = .next t ∧ (t.eng == .idle) = true) ∧
      (∃ t, exec .psd (withRecord (streamOf text [.fail 3] [])) = .next t ∧ (t.eng == .idle) = true) ∧
      (blkOf (bytesOf 8 0)).blk.length = 8 :=
  ⟨exists_of_nextHas (by decide), exists_of_nextHas (by decide), by decide⟩

/-- S6 and S7: two 16-byte sources that differ in byte 15, in chunk 1. -/
theorem witness_BlocksAreIndependent :
    (streamOf (bytes 0 16) [] []).key.length = 32 ∧ StreamFits State.reset.par (streamOf (bytes 0 16) [] []) ∧
      HostServes (streamOf (bytes 0 16) [] []) ∧ (bytes 0 15 ++ [0x58]).length = (bytes 0 16).length ∧
      8 * 1 + 8 ≤ (bytes 0 16).length ∧ chunkAt (bytes 0 8 ++ bytes 0 8) 0 = chunkAt (bytes 0 8 ++ bytes 0 8) 1 ∧
      ∀ i, i < 8 * 1 ∨ 8 * 1 + 8 ≤ i → (bytes 0 15 ++ [0x58])[i]? = (bytes 0 16)[i]? := by
  refine ⟨by decide, fits_unbounded rfl _, serves_unlisted _, by decide, by decide, by decide, fun i h => ?_⟩
  rcases h with h | h
  · have : ∀ i < 8, (bytes 0 15 ++ [0x58])[i]? = (bytes 0 16)[i]? := by decide
    exact this i h
  · have e1 : (bytes 0 15 ++ [(0x58 : Byte)]).length = 16 := by decide
    have e2 : (bytes 0 16).length = 16 := by decide
    rw [List.getElem?_eq_none (by omega), List.getElem?_eq_none (by omega)]

/-- 5, 0 and 8 bytes. -/
theorem witness_PaddingIsDeterministic :
    (streamOf (bytes 0 5) [] []).key.length = 32 ∧ (streamOf (bytes 0 5) [] []).src.bytes.length = 5 ∧
      (streamOf [] [] []).src.bytes.length = 0 ∧ (streamOf (bytes 0 8) [] []).src.bytes.length = 8 ∧
      StreamFits State.reset.par (streamOf (bytes 0 5) [] []) ∧ HostServes (streamOf (bytes 0 5) [] []) :=
  ⟨by decide, by decide, by decide, by decide, fits_unbounded rfl _, serves_unlisted _⟩

/-- Program 2: PSE of 12 bytes, and the command that decrypts what it wrote. -/
theorem witness_PaddingSurvivesTheRoundTrip :
    ∃ t : State, ∃ c : Command, exec .pse (withRecord (streamOf text [] [])) = .next t ∧
      (withRecord (streamOf text [] [])).host.ops.key.length = 32 ∧
      StreamFits (withRecord (streamOf text [] [])).par (withRecord (streamOf text [] [])).host.ops ∧
      HostServes (withRecord (streamOf text [] [])).host.ops ∧ c.ops.key = (withRecord (streamOf text [] [])).host.ops.key ∧
      c.ops.src.bytes = t.host.snk ∧ StreamFits (withRecord (streamOf text [] [])).par c.ops ∧ HostServes c.ops := by
  obtain ⟨t, h, _⟩ := exists_of_nextHas (p := fun _ => true) (o := exec .pse (withRecord (streamOf text [] []))) (by decide)
  exact ⟨t, { cmd := 9, ops := streamOf t.host.snk [] [] }, h, by decide, fits_unbounded rfl _, serves_unlisted _, rfl, rfl,
    fits_unbounded rfl _, serves_unlisted _⟩

/-- One byte over the bound. -/
theorem witness_LongStreamIsRefused :
    (bounded 11 (withRecord (streamOf text [] []))).par.maxStream = some 11 ∧
      11 < (bounded 11 (withRecord (streamOf text [] []))).host.ops.src.bytes.length ∧
      (bounded 11 (withRecord (streamOf text [] []))).host.ops.key.length = 32 := by decide

/-- A source silent at its first read, at the read that would find it exhausted (12 bytes: read 2), and at one after a served write; a
sink silent at its first write and at its last (write 1). -/
theorem witness_UnansweredRequestHangsTheCommand :
    (∃ t, exec .pse (withRecord (streamOf text [.silent] [])) = .next t ∧ (t.eng != .idle) = true) ∧
      (∃ t, exec .psd (withRecord (streamOf text [] [.silent])) = .next t ∧ (t.eng != .idle) = true) ∧
      (streamOf text [.silent] []).key.length = 32 ∧ StreamFits State.reset.par (streamOf text [.silent] []) ∧
      (0 ≤ chunkCount text.length ∧ (streamOf text [.silent] []).src.answers = List.replicate 0 .ok ++ .silent :: []) ∧
      (2 ≤ chunkCount text.length ∧ (streamOf text [.ok, .ok, .silent] []).src.answers = List.replicate 2 .ok ++ .silent :: []) ∧
      (∀ a ∈ (streamOf text [.ok, .silent] [.ok]).snk.take 1, a = .ok) ∧
      (0 < chunkCount text.length ∧ (streamOf text [] [.silent]).snk = List.replicate 0 .ok ++ .silent :: []) ∧
      (1 < chunkCount text.length ∧ (streamOf text [] [.ok, .silent]).snk = List.replicate 1 .ok ++ .silent :: []) ∧
      (∀ a ∈ (streamOf text [.ok, .ok] [.ok, .silent]).src.answers.take 2, a = .ok) :=
  ⟨exists_of_nextHas (by decide), exists_of_nextHas (by decide), by decide, fits_unbounded rfl _, by decide, by decide, by decide,
    by decide, by decide, by decide⟩

/-- A sink of 8 bytes cut to 3 on an idle core, and the same cut standing while a stream runs. -/
theorem witness_HostCutsTheSinkBetweenCommands :
    ({ midStream [.cutSink 3] with eng := .idle } : State).par.wellFormed = true ∧
      ({ midStream [.cutSink 3] with eng := .idle } : State).host.script = .cutSink 3 :: [] ∧
      ({ midStream [.cutSink 3] with eng := .idle } : State).eng = .idle ∧
      (midStream [.cutSink 3]).par.wellFormed = true ∧ (midStream [.cutSink 3]).host.script = .cutSink 3 :: [] ∧
      (midStream [.cutSink 3]).eng = .busy .pse .load ∧ nextHas (fun _ => true) (step (midStream [.cutSink 3])) = true := by decide

/-- A micro-step in each phase. -/
theorem witness_StreamPhasesFollowTheTable :
    (midStream []).eng = .busy (streamInstr .encrypt) .load ∧
      ([Phase.keyload, .read, .xform, .write, .done].all fun ph =>
        nextHas (fun _ => true) (microStep { midStream [] with fp := { (midStream []).fp with phase := ph } })) = true := by
  decide

/-- A KEYX that fails, one that succeeds, and a GF. -/
theorem witness_RegistersHaveTheirWriters :
    (∃ t, exec .keyx (withRecord (keyOf [])) = .next t ∧ (t.eng == .idle && statusCode t.status != 0) = true) ∧
      (∃ t, exec .keyx (withRecord (keyOf key)) = .next t ∧ true = true) ∧ ∃ t, exec .gf State.reset = .next t ∧ true = true :=
  ⟨exists_of_nextHas (by decide), exists_of_nextHas (p := fun _ => true) (by decide),
    exists_of_nextHas (p := fun _ => true) (by decide)⟩

theorem witness_RegistersChangeOnlyInTheirCommands :
    (∃ t, step (scripted [.issue { cmd := 4, ops := words 1 2 }]) = .next t ∧ (t.res != State.reset.res) = true) ∧
      ∀ rest, (scripted [.issue { cmd := 4, ops := words 1 2 }]).host.script ≠ .reset :: rest :=
  ⟨exists_of_nextHas (by decide), by intro rest h; cases h⟩

theorem witness_StreamCommandFrame :
    (∃ t, exec .pse (withRecord (streamOf text [] [])) = .next t ∧ true = true) ∧
      ∃ t, exec .psd (withRecord (streamOf text [] [])) = .next t ∧ true = true :=
  ⟨exists_of_nextHas (p := fun _ => true) (by decide), exists_of_nextHas (p := fun _ => true) (by decide)⟩

/-- GF with another KEY, BLK, SRC and SNK at the port. -/
theorem witness_UnreadOperandsHaveNoEffect :
    SameRead .gf (withRecord (words 1 2)).host.ops { streamOf text [.silent] [.fail 1] with a := 1, k := 2, blk := [3] } ∧
      ∃ t, exec .gf (withRecord (words 1 2)) = .next t ∧ true = true :=
  ⟨⟨rfl, rfl⟩, exists_of_nextHas (p := fun _ => true) (by decide)⟩

theorem witness_StatusCodesOfEachCommand :
    (∃ t, exec .encb (withRecord (blkOf [])) = .next t ∧ (t.eng == .idle) = true) ∧
      ∃ t, exec .pse (withRecord (streamOf text [.fail 1] [])) = .next t ∧ (t.eng == .idle) = true :=
  ⟨exists_of_nextHas (by decide), exists_of_nextHas (by decide)⟩

theorem witness_ErrorsInTheirOrder :
    (scripted [.issue (plain 5)]).par.wellFormed = true ∧ (scripted [.issue (plain 5)]).eng = .idle ∧
      (scripted [.issue (plain 5)]).host.script = .issue (plain 5) :: [] ∧ decode (plain 5).cmd = none ∧
      (withRecord (blkOf [])).host.ops.blk.length ≠ 8 ∧ (withRecord (blkOf (bytesOf 8 0))).host.ops.blk.length = 8 ∧
      (withRecord (blkOf (bytesOf 8 0))).rkValid = false ∧ (withRecord (keyOf [])).host.ops.key.length ≠ 32 := by decide

/-- A host that answers with a success and then a failure. -/
theorem witness_EveryCommandAnswersOnce :
    HostAnswers (streamOf text [.ok, .fail 4] []) ∧ StreamFits State.reset.par (streamOf text [.ok, .fail 4] []) :=
  ⟨⟨by decide, by decide⟩, fits_unbounded rfl _⟩

theorem witness_MicroStepsRefineTheCommands :
    microBound .pse (withRecord (streamOf text [] [])).host.ops.src.bytes.length ≤ 75 ∧ microBound .encb 0 ≤ 35 := by decide

theorem witness_ParametersAreNeverWritten : ∃ t, step (midStream [.reset]) = .next t ∧ true = true :=
  exists_of_nextHas (p := fun _ => true) (by decide)

theorem witness_EveryStepKeepsTheInvariant :
    Sound (midStream [.tick]) ∧ ∃ t, step (midStream [.tick]) = .next t ∧ (t.fp.phase == .xform) = true :=
  ⟨midStream_sound _, exists_of_nextHas (by decide)⟩

theorem witness_NothingElseStopsTheMachine :
    State.reset.par.wellFormed = true ∧ State.reset.par.maxStream = none ∧
      (∀ rest, State.reset.host.script = .read .res :: rest → State.reset.resHeld = true) ∧
      ∀ rest, State.reset.host.script = .read .blkout :: rest → State.reset.blkHeld = true :=
  ⟨by decide, rfl, (by intro rest h; cases h), (by intro rest h; cases h)⟩

end Sys2Proof.Tests
end

section
/-!
PROOFS. The statements about the state of the core (10_state): what a step can be, which registers a command may write, and the
invariant every step keeps.
-/

namespace Sys2Proof.Machine

/-! ### What a step can be -/

theorem readPort_of_value {p : Port} {s : State} {v : PortValue} (h : s.portValue p = some v) :
    readPort p s = .next { s with host := { s.host with seen := s.host.seen ++ [v] } } := by
  simp [readPort, h]

theorem readPort_of_noValue {p : Port} {s : State} (h : s.portValue p = none) :
    readPort p s = .fault (.readWithoutValue p) := by
  simp [readPort, h]

/-- A port read that answers has shown the host one value and changed nothing else (R29). -/
theorem readPort_next {p : Port} {s t : State} (h : readPort p s = .next t) :
    ∃ v, t = { s with host := { s.host with seen := s.host.seen ++ [v] } } := by
  cases hv : s.portValue p with
  | some v => exact ⟨v, (next_inj ((readPort_of_value hv).symm.trans h)).symm⟩
  | none => rw [readPort_of_noValue hv] at h; cases h

/-- An acceptance writes ENG, and FP_PHASE for a stream command (R33, R104). -/
theorem beginCommand_eq (s : State) (i : Instr) :
    s.beginCommand i =
      { s with eng := .busy i .check, fp := { s.fp with phase := if isStream i then .keyload else s.fp.phase } } := by
  cases i <;> rfl

/-- The kinds of step that answer a next state. A micro-step is taken with the host's `tick` off the script or with the script as it
is, which `rest` covers both. -/
inductive StepKind (s t : State) : Prop
  | micro (rest : List HostMove) (h : microStep (s.withScript rest) = .next t)
  | reset (rest : List HostMove) (hs : s.host.script = .reset :: rest) (ht : t = (s.withScript rest).resetCore)
  | read (rest : List HostMove) (v : PortValue)
      (ht : t = { s.withScript rest with host := { (s.withScript rest).host with seen := s.host.seen ++ [v] } })
  | issue (c : Command) (rest : List HostMove) (i : Instr) (hs : s.host.script = .issue c :: rest) (he : s.eng = .idle)
      (hd : decode c.cmd = some i) (h : exec i ((s.withScript rest).present c) = .next t)
  | start (c : Command) (rest : List HostMove) (i : Instr) (he : s.eng = .idle)
      (ht : t = ((s.withScript rest).present c).beginCommand i)
  | illegal (c : Command) (rest : List HostMove) (he : s.eng = .idle)
      (ht : t = ((s.withScript rest).present c).raise (.illegalCommand c.cmd))
  | cut (n : Nat) (rest : List HostMove) (he : s.eng = .idle) (ht : t = (s.withScript rest).cutSink n)

/-- Everything a step that answers can be (R55, R123, R135). -/
theorem step_kind {s t : State} (h : step s = .next t) : StepKind s t := by
  obtain ⟨-, h⟩ := step_next h
  rcases hostStep_cases s with e | ⟨rest, -, e⟩ | ⟨rest, hs, e⟩ | ⟨p, rest, -, e⟩ | ⟨c, rest, hs, he, e⟩ |
    ⟨c, rest, -, he, e⟩ | ⟨n, rest, -, he, e⟩ <;> rw [e] at h
  · exact .micro s.host.script h
  · exact .micro rest h
  · exact .reset rest hs (next_inj h).symm
  · obtain ⟨v, ht⟩ := readPort_next h
    exact .read rest v ht
  · cases hd : decode c.cmd with
    | some i => exact .issue c rest i hs he hd (by simpa only [issueCommand, hd] using h)
    | none =>
      simp only [issueCommand, hd] at h
      exact .illegal c rest he (next_inj h).symm
  · cases hd : decode c.cmd with
    | some i =>
      simp only [startCommand, hd] at h
      exact .start c rest i he (next_inj h).symm
    | none =>
      simp only [startCommand, hd] at h
      exact .illegal c rest he (next_inj h).symm
  · exact .cut n rest he (next_inj h).symm

/-- The kinds of micro-step that answer a next state, by what ENG holds. -/
inductive MicroKind (s t : State) : Prop
  | idle (ht : t = s)
  | keyx (pos : BlockPos) (he : s.eng = .busy .keyx pos) (h : execKeyx s = .next t)
  | gf (pos : BlockPos) (he : s.eng = .busy .gf pos) (h : execGf s = .next t)
  | block (m : Mode) (pos : BlockPos) (he : s.eng = .busy (blockInstr m) pos) (ht : t = blockMicro (blockInstr m) m pos s)
  | stream (m : Mode) (pos : BlockPos) (he : s.eng = .busy (streamInstr m) pos)
      (h : streamMicro (streamInstr m) m pos s = .next t)

/-- Everything a micro-step that answers can be (R93, R104, R132, R141). -/
theorem microStep_kind {s t : State} (h : microStep s = .next t) : MicroKind s t := by
  cases he : s.eng with
  | idle => exact .idle (next_inj ((microStep_idle he).symm.trans h)).symm
  | busy i pos =>
    induction i using instr_families with
    | keyx => exact .keyx pos he (by simpa only [microStep, he] using h)
    | gf => exact .gf pos he (by simpa only [microStep, he] using h)
    | block m => exact .block m pos he (next_inj ((microStep_block he).symm.trans h)).symm
    | stream m => exact .stream m pos he ((microStep_stream he).symm.trans h)

/-- Everything a micro-step of a running block command can do: raise an error, work in the block engine, or emit (R93-R95). -/
theorem blockMicro_cases {i : Instr} {pos : BlockPos} {s : State} (m : Mode) (he : s.eng = .busy i pos) :
    (∃ e, blockMicro i m pos s = s.raise e) ∨
    (∃ be p, (s.be.rnd ≤ 32 → be.rnd ≤ 32) ∧ blockMicro i m pos s = { s with be := be, eng := .busy i p }) ∨
    blockMicro i m pos s =
      { s with blkout := engineEmit s.be, blkHeld := true }.respond (.blkout (engineEmit s.be)) := by
  cases pos with
  | check =>
    simp only [blockMicro]
    split
    · exact .inl ⟨_, rfl⟩
    · split
      · exact .inl ⟨_, rfl⟩
      · exact .inr (.inl ⟨s.be, .load, id, rfl⟩)
  | load => exact .inr (.inl ⟨engineLoad s.blkOperand m, .run, fun _ => by simp [engineLoad], rfl⟩)
  | run =>
    simp only [blockMicro]
    split
    next hr =>
      refine .inr (.inl ⟨engineRound s.par s.rk s.be, .run, fun _ => ?_, by rw [← he]⟩)
      show s.be.rnd + 1 ≤ 32
      bv_omega
    next => exact .inr (.inr rfl)

/-- A micro-step of a running stream's XFORM writes the block engine, ENG's position and the file processor, whose position registers
it leaves alone (R93, R104). -/
theorem xformMicro_eq {i : Instr} {pos : BlockPos} {s : State} (m : Mode) (he : s.eng = .busy i pos) :
    ∃ be fp p, (s.be.rnd ≤ 32 → be.rnd ≤ 32) ∧ fp.inPos = s.fp.inPos ∧ fp.outPos = s.fp.outPos ∧
      xformMicro i m pos s = { s with be := be, fp := fp, eng := .busy i p } := by
  have loads : ∃ be fp p, (s.be.rnd ≤ 32 → be.rnd ≤ 32) ∧ fp.inPos = s.fp.inPos ∧ fp.outPos = s.fp.outPos ∧
      xformMicro i m .load s = { s with be := be, fp := fp, eng := .busy i p } :=
    ⟨engineLoad (blockOfBytes s.fp.inBytes) m, { s.fp with chunk := blockOfBytes s.fp.inBytes }, .run,
      fun _ => by simp [engineLoad], rfl, rfl, rfl⟩
  cases pos with
  | check => exact loads
  | load => exact loads
  | run =>
    simp only [xformMicro]
    split
    next hr =>
      refine ⟨engineRound s.par s.rk s.be, s.fp, .run, fun _ => ?_, rfl, rfl, by rw [← he]⟩
      show s.be.rnd + 1 ≤ 32
      bv_omega
    next => exact ⟨s.be, { s.fp with xblk := engineEmit s.be, phase := .write }, .load, id, rfl, rfl, rfl⟩

/-- A micro-step of a stream command is its key load, or one of the other phases past it (R104). -/
theorem streamMicro_next {i : Instr} {m : Mode} {pos : BlockPos} {s t : State} (h : streamMicro i m pos s = .next t) :
    s.keyLoadStep i m = .next t ∨
      s.fp.phase ≠ .keyload ∧ (t = s.readStep ∨ t = xformMicro i m pos s ∨ t = s.writeStep ∨ t = s.doneStep) := by
  unfold streamMicro at h
  cases hp : s.fp.phase <;> rw [hp] at h <;> simp only at h
  · exact .inl h
  · exact .inr ⟨nofun, .inl (next_inj h).symm⟩
  · exact .inr ⟨nofun, .inr (.inl (next_inj h).symm)⟩
  · exact .inr ⟨nofun, .inr (.inr (.inl (next_inj h).symm))⟩
  · exact .inr ⟨nofun, .inr (.inr (.inr (next_inj h).symm))⟩

/-- The state a successful KEYLOAD leaves (R101). -/
def State.keyLoaded (s : State) (i : Instr) (m : Mode) : State :=
  { s.openStream i m with
    rk := keySchedule s.host.ops.key
    fp := { s.fp with mode := m, phase := .read, inPos := 0, outPos := 0 } }

/-- A key load that answers has refused the key or loaded its schedule, for a source within the bound (R101, R113). -/
theorem keyLoadStep_next {i : Instr} {m : Mode} {s t : State} (h : s.keyLoadStep i m = .next t) :
    t = (s.openStream i m).discardKeys.raise (.invalidKeyLength s.host.ops.key.length) ∨
      s.host.ops.key.length = 32 ∧ StreamFits s.par s.host.ops ∧ t = s.keyLoaded i m := by
  rcases keyLoadStep_cases s i m with ⟨-, e⟩ | ⟨-, -, e⟩ | ⟨hk, hl, e⟩ <;> rw [e] at h
  · exact .inl (next_inj h).symm
  · cases h
  · exact .inr ⟨hk, (streamTooLong_openStream s i m).mp hl, (next_inj h).symm⟩

/-- A stream command that answers has refused the key, or loaded its schedule and run the loop (R100). -/
theorem streamCommand_next {i : Instr} {m : Mode} {s t : State} (h : streamCommand i m s = .next t) :
    t = (s.openStream i m).discardKeys.raise (.invalidKeyLength s.host.ops.key.length) ∨
      s.host.ops.key.length = 32 ∧ StreamFits s.par s.host.ops ∧
        t = State.streamLoop m (streamReads s.host.ops.src.bytes.length) (s.keyLoaded i m) := by
  rcases streamCommand_cases i m s with ⟨-, e⟩ | ⟨-, -, e⟩ | ⟨hk, hl, e⟩ <;> rw [e] at h
  · exact .inl (next_inj h).symm
  · cases h
  · exact .inr ⟨hk, (streamTooLong_openStream s i m).mp hl, (next_inj h).symm⟩

/-! ### The parameters, the script and the operand record -/

theorem blockCommand_keeps (m : Mode) (s : State) : Keeps s (blockCommand m s) := by
  rcases blockCommand_cases m s with ⟨-, e⟩ | ⟨-, -, e⟩ | ⟨-, -, e⟩ <;> rw [e] <;> exact ⟨rfl, rfl, rfl⟩

theorem execGf_keeps {s t : State} (h : execGf s = .next t) : Keeps s t := by
  rw [← next_inj h]; exact ⟨rfl, rfl, rfl⟩

theorem streamCommand_keeps {i : Instr} {m : Mode} {s t : State} (h : streamCommand i m s = .next t) : Keeps s t := by
  rcases streamCommand_next h with rfl | ⟨-, -, rfl⟩
  · exact ⟨rfl, rfl, rfl⟩
  · have hload : Keeps s (s.keyLoaded i m) := ⟨rfl, rfl, rfl⟩
    exact hload.trans (streamLoop_keeps m _ (s.keyLoaded i m))

/-- No command writes the parameters, the host's script or the operand record. -/
theorem exec_keeps {i : Instr} {s t : State} (h : exec i s = .next t) : Keeps s t := by
  induction i using instr_families with
  | keyx => exact execKeyx_keeps h
  | gf => exact execGf_keeps h
  | block m => rw [exec_blockInstr] at h; rw [← next_inj h]; exact blockCommand_keeps m s
  | stream m => rw [exec_streamInstr] at h; exact streamCommand_keeps h

/-- No micro-step writes the parameters, the host's script or the operand record. -/
theorem microStep_keeps {s t : State} (h : microStep s = .next t) : Keeps s t := by
  cases microStep_kind h with
  | idle ht => subst ht; exact ⟨rfl, rfl, rfl⟩
  | keyx pos _ h => exact execKeyx_keeps h
  | gf pos _ h => exact execGf_keeps h
  | block m pos _ ht => subst ht; exact blockMicro_keeps _ m pos s
  | stream m pos _ h => exact streamMicro_keeps h

/-- Settles O52: the operations keep the parameters, reset too. -/
theorem parametersAreNeverWritten : Obligations.ParametersAreNeverWritten := by
  intro s t h
  cases step_kind h with
  | micro rest h => exact (microStep_keeps h).par
  | reset rest _ ht => subst ht; rfl
  | read rest v ht => subst ht; rfl
  | issue c rest i _ _ _ h => exact (exec_keeps h).par
  | start c rest i _ ht => subst ht; rw [beginCommand_eq]; rfl
  | illegal c rest _ ht => subst ht; rfl
  | cut n rest _ ht => subst ht; rfl

/-! ### Which registers a command may write -/

/-- What a step may do to RES, BLKOUT, RK, RK_VALID, STATUS and the responses, where `runs i` says that it is a step of command i
(R20, R23-R27). -/
structure RegisterFrame (runs : Instr → Prop) (s t : State) : Prop where
  res : t.res = s.res ∧ t.resHeld = s.resHeld ∨ runs .gf ∧ t.eng = .idle ∧ t.status = 0 ∧ t.resHeld = true
  blkout : t.blkout = s.blkout ∧ t.blkHeld = s.blkHeld ∨
    (runs .encb ∨ runs .decb) ∧ t.eng = .idle ∧ t.status = 0 ∧ t.blkHeld = true
  rk : t.rk = s.rk ∨ (runs .keyx ∨ runs .pse ∨ runs .psd) ∧ t.rk = keySchedule t.host.ops.key
  rkValid : t.rkValid = s.rkValid ∨ runs .keyx ∧ t.rkValid = true ∨ (runs .pse ∨ runs .psd) ∧ t.rkValid = false
  response : t.status = s.status ∧ t.host.resps = s.host.resps ∨
    t.eng = .idle ∧ ∃ r, t.host.resps = s.host.resps ++ [r] ∧ r.status = t.status

section Frames

variable {runs : Instr → Prop} {s t u : State}

/-- A step that writes none of these registers, whatever it does to the rest of the state. -/
theorem RegisterFrame.unwritten (s : State) (be : BlockEngine) (fp : FileProc) (eng : Eng) (host : HostSide)
    (hr : host.resps = s.host.resps) : RegisterFrame runs s { s with be := be, fp := fp, eng := eng, host := host } :=
  ⟨.inl ⟨rfl, rfl⟩, .inl ⟨rfl, rfl⟩, .inl rfl, .inl rfl, .inl ⟨rfl, hr⟩⟩

/-- The frame does not look at the script or the record that stood at the port before the step. -/
theorem RegisterFrame.of_presented (rest : List HostMove) (ops : OperandRecord)
    (h : RegisterFrame runs { s with host := { s.host with script := rest, ops := ops } } t) : RegisterFrame runs s t :=
  ⟨h.res, h.blkout, h.rk, h.rkValid, h.response⟩

/-- A response writes STATUS and sends one response (R55, R57). -/
theorem RegisterFrame.answer (s : State) (st : Word) (r : Result) (io : Option IoInfo) :
    RegisterFrame runs s (s.answerHost st r io) :=
  ⟨.inl ⟨rfl, rfl⟩, .inl ⟨rfl, rfl⟩, .inl rfl, .inl rfl, .inr ⟨rfl, _, rfl, rfl⟩⟩

/-- A block command that succeeds writes BLKOUT (R26, R94, R95). -/
theorem RegisterFrame.emit (hr : runs .encb ∨ runs .decb) (s : State) (be : BlockEngine) (b : Block) :
    RegisterFrame runs s ({ s with be := be, blkout := b, blkHeld := true }.respond (.blkout b)) :=
  ⟨.inl ⟨rfl, rfl⟩, .inr ⟨hr, rfl, statusOk_eq, rfl⟩, .inl rfl, .inl rfl, .inr ⟨rfl, _, rfl, rfl⟩⟩

theorem execKeyx_frame (hr : runs .keyx) (h : execKeyx s = .next t) : RegisterFrame runs s t := by
  rcases execKeyx_cases s with ⟨-, e⟩ | ⟨-, e⟩ <;> rw [← next_inj (e.symm.trans h)]
  · exact ⟨.inl ⟨rfl, rfl⟩, .inl ⟨rfl, rfl⟩, .inr ⟨.inl hr, rfl⟩, .inr (.inl ⟨hr, rfl⟩), .inr ⟨rfl, _, rfl, rfl⟩⟩
  · exact .answer s _ _ _

theorem execGf_frame (hr : runs .gf) (h : execGf s = .next t) : RegisterFrame runs s t := by
  rw [← next_inj h]
  exact ⟨.inr ⟨hr, rfl, statusOk_eq, rfl⟩, .inl ⟨rfl, rfl⟩, .inl rfl, .inl rfl, .inr ⟨rfl, _, rfl, rfl⟩⟩

theorem runs_block {m : Mode} (h : runs (blockInstr m)) : runs .encb ∨ runs .decb := by
  cases m with
  | encrypt => exact .inl h
  | decrypt => exact .inr h

theorem runs_stream {m : Mode} (h : runs (streamInstr m)) : runs .pse ∨ runs .psd := by
  cases m with
  | encrypt => exact .inl h
  | decrypt => exact .inr h

theorem blockCommand_frame {m : Mode} (hr : runs (blockInstr m)) (s : State) : RegisterFrame runs s (blockCommand m s) := by
  rcases blockCommand_cases m s with ⟨-, e⟩ | ⟨-, -, e⟩ | ⟨-, -, e⟩ <;> rw [e]
  · exact .answer s _ _ _
  · exact .answer s _ _ _
  · exact .emit (runs_block hr) s _ _

theorem blockMicro_frame {m : Mode} {pos : BlockPos} (hr : runs (blockInstr m)) (he : s.eng = .busy (blockInstr m) pos) :
    RegisterFrame runs s (blockMicro (blockInstr m) m pos s) := by
  rcases blockMicro_cases m he with ⟨_, e⟩ | ⟨be, p, -, e⟩ | e <;> rw [e]
  · exact .answer s _ _ _
  · exact .unwritten s be s.fp _ s.host rfl
  · exact .emit (runs_block hr) s s.be _

/-- A stream command has gone on from s to t: of these registers it has written at most RK, with the schedule of the key at the port. -/
structure StreamGoesOn (s t : State) : Prop where
  res : t.res = s.res ∧ t.resHeld = s.resHeld
  blkout : t.blkout = s.blkout ∧ t.blkHeld = s.blkHeld
  rk : t.rk = s.rk ∨ t.rk = keySchedule s.host.ops.key
  rkValid : t.rkValid = s.rkValid
  response : t.status = s.status ∧ t.host.resps = s.host.resps
  ops : t.host.ops = s.host.ops

/-- What a stream command does from s to t: it goes on, or it goes on to some u and there ends, which discards the schedule (R109). -/
inductive StreamEffect (s t : State) : Prop
  | goesOn (h : StreamGoesOn s t)
  | ends (u : State) (st : Word) (r : Result) (io : Option IoInfo) (h : StreamGoesOn s u)
      (ht : t = u.discardKeys.answerHost st r io)

theorem StreamGoesOn.trans (h : StreamGoesOn s t) (g : StreamGoesOn t u) : StreamGoesOn s u where
  res := ⟨g.res.1.trans h.res.1, g.res.2.trans h.res.2⟩
  blkout := ⟨g.blkout.1.trans h.blkout.1, g.blkout.2.trans h.blkout.2⟩
  rk := by
    rcases g.rk with e | e
    · rw [e]; exact h.rk
    · rw [e, h.ops]; exact .inr rfl
  rkValid := g.rkValid.trans h.rkValid
  response := ⟨g.response.1.trans h.response.1, g.response.2.trans h.response.2⟩
  ops := g.ops.trans h.ops

theorem StreamGoesOn.andThen (h : StreamGoesOn s t) (g : StreamEffect t u) : StreamEffect s u := by
  cases g with
  | goesOn g => exact .goesOn (h.trans g)
  | ends v st r io g hu => exact .ends v st r io (h.trans g) hu

theorem StreamEffect.frame (hr : runs .pse ∨ runs .psd) (h : StreamEffect s t) : RegisterFrame runs s t := by
  cases h with
  | goesOn h =>
    exact ⟨.inl h.res, .inl h.blkout, h.rk.imp_right fun e => ⟨.inr hr, by rw [e, h.ops]⟩, .inl h.rkValid, .inl h.response⟩
  | ends u st r io h ht =>
    subst ht
    exact ⟨.inl h.res, .inl h.blkout, h.rk.imp_right fun e => ⟨.inr hr, by simp [e, h.ops]⟩, .inr (.inr ⟨hr, rfl⟩),
      .inr ⟨rfl, _, congrArg (· ++ _) h.response.2, rfl⟩⟩

/-- What the phases other than KEYLOAD write while the stream goes on: none of these registers. -/
theorem streamGoesOn_phase (s : State) (be : BlockEngine) (fp : FileProc) (eng : Eng) (src : Source) (snk : List Byte)
    (answers : List Answer) (events : List IoEvent) (ctr : Nat) :
    StreamGoesOn s
      { s with
        be := be
        fp := fp
        eng := eng
        host := { s.host with src := src, snk := snk, snkAnswers := answers, events := events }
        freeCtr := ctr } :=
  ⟨⟨rfl, rfl⟩, ⟨rfl, rfl⟩, .inl rfl, rfl, ⟨rfl, rfl⟩, rfl⟩

theorem readStep_effect (s : State) : StreamEffect s s.readStep := by
  rcases readStep_cases s with ⟨_, _, e⟩ | ⟨info, rest, _, e⟩ | ⟨_, _, e⟩ <;> rw [e]
  · exact .goesOn (streamGoesOn_phase ..)
  · exact .ends (s.failRead info rest) _ _ _ (streamGoesOn_phase ..) rfl
  · exact .goesOn (streamGoesOn_phase ..)

theorem writeStep_effect (s : State) : StreamEffect s s.writeStep := by
  rcases writeStep_cases s with ⟨_, _, e⟩ | ⟨info, rest, _, e⟩ | ⟨_, _, e⟩ <;> rw [e]
  · exact .goesOn (streamGoesOn_phase ..)
  · exact .ends (s.failWrite s.fp.xblk info rest) _ _ _ (streamGoesOn_phase ..) rfl
  · exact .goesOn (streamGoesOn_phase ..)

theorem doneStep_effect (s : State) : StreamEffect s s.doneStep :=
  .ends s _ _ _ (streamGoesOn_phase ..) rfl

theorem keyRefused_effect (s : State) (i : Instr) (m : Mode) (e : Err) :
    StreamEffect s ((s.openStream i m).discardKeys.raise e) :=
  .ends (s.openStream i m) _ _ _ (streamGoesOn_phase ..) rfl

theorem keyLoaded_goesOn (s : State) (i : Instr) (m : Mode) : StreamGoesOn s (s.keyLoaded i m) :=
  ⟨⟨rfl, rfl⟩, ⟨rfl, rfl⟩, .inr rfl, rfl, ⟨rfl, rfl⟩, rfl⟩

theorem keyLoadStep_effect {i : Instr} {m : Mode} (h : s.keyLoadStep i m = .next t) : StreamEffect s t := by
  rcases keyLoadStep_next h with rfl | ⟨-, -, rfl⟩
  · exact keyRefused_effect s i m _
  · exact .goesOn (keyLoaded_goesOn s i m)

theorem streamMicro_effect {i : Instr} {m : Mode} {pos : BlockPos} (he : s.eng = .busy i pos)
    (h : streamMicro i m pos s = .next t) : StreamEffect s t := by
  rcases streamMicro_next h with h | ⟨-, rfl | rfl | rfl | rfl⟩
  · exact keyLoadStep_effect h
  · exact readStep_effect s
  · obtain ⟨be, fp, p, -, -, -, e⟩ := xformMicro_eq m he
    rw [e]; exact .goesOn (streamGoesOn_phase ..)
  · exact writeStep_effect s
  · exact doneStep_effect s

/-- From the loop's head, a read that leads to XFORM and the transform after it write none of these registers. -/
theorem xformStep_goesOn {m : Mode} (hp : s.fp.phase = .read) (hx : s.readStep.fp.phase = .xform) :
    StreamGoesOn s (s.readStep.xformStep m) := by
  obtain ⟨rest, -, -, e⟩ := readStep_xform hp hx
  rw [e]; exact streamGoesOn_phase ..

theorem streamLoop_effect (m : Mode) (n : Nat) (hp : s.fp.phase = .read) : StreamEffect s (State.streamLoop m n s) := by
  refine streamLoop_induction (m := m) (P := fun u => StreamGoesOn s u ∧ u.fp.phase = .read) (Q := StreamEffect s)
    ?outOfReads ?readStops ?exhausted ?writeStops ?again n s ⟨streamGoesOn_phase .., hp⟩
  case outOfReads => exact fun u ⟨h, _⟩ => .goesOn h
  case readStops => exact fun u ⟨h, _⟩ _ _ => h.andThen (readStep_effect u)
  case exhausted =>
    intro u ⟨h, hu⟩ hd
    obtain ⟨rest, -, -, e⟩ := readStep_done hu hd
    rw [e]; exact (h.trans (streamGoesOn_phase ..)).andThen (doneStep_effect _)
  case writeStops => exact fun u ⟨h, hu⟩ hx _ => (h.trans (xformStep_goesOn hu hx)).andThen (writeStep_effect _)
  case again =>
    intro u ⟨h, hu⟩ hx hw
    refine ⟨(h.trans (xformStep_goesOn (m := m) hu hx)).trans ?_, hw⟩
    obtain ⟨rest, -, e⟩ := writeStep_read rfl hw
    rw [e]; exact streamGoesOn_phase ..

theorem streamCommand_effect {i : Instr} {m : Mode} (h : streamCommand i m s = .next t) : StreamEffect s t := by
  rcases streamCommand_next h with rfl | ⟨-, -, rfl⟩
  · exact keyRefused_effect s i m _
  · exact (keyLoaded_goesOn s i m).andThen (streamLoop_effect m _ rfl)

/-- A whole command writes only its own registers (R23, R26, R27). -/
theorem exec_frame {i : Instr} (hr : runs i) (h : exec i s = .next t) : RegisterFrame runs s t := by
  induction i using instr_families with
  | keyx => exact execKeyx_frame hr h
  | gf => exact execGf_frame hr h
  | block m => rw [exec_blockInstr] at h; rw [← next_inj h]; exact blockCommand_frame hr s
  | stream m => rw [exec_streamInstr] at h; exact (streamCommand_effect h).frame (runs_stream hr)

/-- A micro-step writes only the registers of the command that runs (R93, R104). -/
theorem microStep_frame (hr : ∀ i pos, s.eng = .busy i pos → runs i) (h : microStep s = .next t) : RegisterFrame runs s t := by
  cases microStep_kind h with
  | idle ht => subst ht; exact .unwritten t t.be t.fp t.eng t.host rfl
  | keyx pos he h => exact execKeyx_frame (hr _ _ he) h
  | gf pos he h => exact execGf_frame (hr _ _ he) h
  | block m pos he ht => subst ht; exact blockMicro_frame (hr _ _ he) he
  | stream m pos he h => exact (streamMicro_effect he h).frame (runs_stream (hr _ _ he))

end Frames

/-- Settles O44: the frame of a whole command, with `runs` the command itself; an error's code is not the 0 of success. -/
theorem registersHaveTheirWriters : Obligations.RegistersHaveTheirWriters := by
  intro i s t h
  have f := exec_frame (runs := fun j => i = j) rfl h
  have hops := (exec_keeps h).ops
  refine ⟨fun hi => ?_, fun he hd => ?_, fun _ hcode => ?_, fun hk hs => ?_, ?_⟩
  · exact f.res.resolve_right fun ⟨e, _⟩ => hi e
  · exact f.blkout.resolve_right fun ⟨e, _⟩ => e.elim he hd
  · have hne : t.status ≠ 0 := fun e => hcode (by rw [e]; decide)
    obtain ⟨hres, hheld⟩ := f.res.resolve_right fun ⟨_, _, e, _⟩ => hne e
    obtain ⟨hblk, hbheld⟩ := f.blkout.resolve_right fun ⟨_, _, e, _⟩ => hne e
    exact ⟨hres, hheld, hblk, hbheld⟩
  · have hns : ¬ (i = .pse ∨ i = .psd) := by rintro (rfl | rfl) <;> cases hs
    constructor
    · exact f.rk.resolve_right fun ⟨e, _⟩ => e.elim hk hns
    · exact f.rkValid.resolve_right fun e => e.elim (fun ⟨e, _⟩ => hk e) fun ⟨e, _⟩ => hns e
  · exact f.rk.imp_right fun ⟨_, e⟩ => by rw [e, hops]

/-- Every step but a reset has the frame, for the command whose step it is. -/
theorem step_frame {s t : State} (h : step s = .next t) (hreset : ∀ rest, s.host.script ≠ .reset :: rest) :
    RegisterFrame (Runs s) s t := by
  cases step_kind h with
  | micro rest h =>
    exact .of_presented rest s.host.ops (microStep_frame (s := s.withScript rest) (fun i pos he => Or.inl ⟨pos, he⟩) h)
  | reset rest hs _ => exact absurd hs (hreset rest)
  | read rest v ht => subst ht; exact .unwritten s s.be s.fp s.eng _ rfl
  | issue c rest i hs he hd h =>
    exact .of_presented rest c.ops
      (exec_frame (s := (s.withScript rest).present c) (runs := Runs s) (Or.inr ⟨he, c, rest, hs, hd⟩) h)
  | start c rest i _ ht => subst ht; rw [beginCommand_eq]; exact .unwritten s s.be _ _ _ rfl
  | illegal c rest _ ht => subst ht; exact .of_presented rest c.ops (.answer ((s.withScript rest).present c) _ _ _)
  | cut n rest _ ht => subst ht; exact .unwritten s s.be s.fp s.eng _ rfl

/-- Settles O45: the frame of a step, read out. -/
theorem registersChangeOnlyInTheirCommands : Obligations.RegistersChangeOnlyInTheirCommands := by
  intro s t h hreset
  obtain ⟨hres, hblkout, hrk, hrkValid, hresponse⟩ := step_frame h hreset
  exact ⟨hres, hblkout, hrk, hrkValid, hresponse⟩

/-! ### The invariant -/

theorem statusLegal_zero : StatusLegal 0 := by unfold StatusLegal; decide

theorem statusLegal_ok : StatusLegal statusOk := statusOk_eq ▸ statusLegal_zero

theorem statusLegal_err (e : Err) : StatusLegal e.status := by
  obtain ⟨hcode, hside, hreserved⟩ := err_status_fields e
  rw [StatusLegal, hcode, hside]
  refine ⟨hreserved, ?_, ?_⟩
  · cases e <;> simp [Err.code]
  · cases e with
    | ioFailure side info => exact fun h => absurd rfl h
    | invalidKeyLength | invalidBlockLength | illegalCommand | noRoundKeys => exact fun _ => rfl

/-- After a whole transform RND is 32 (R93). -/
theorem engineAfter_rnd_le (p : Params) (m : Mode) (rk : Schedule) (b : Block) : (engineAfter p m rk b).rnd ≤ 32 := by
  have h : (engineAfter p m rk b).rnd.toNat = 32 := engineRounds_rnd p rk 32 (engineLoad b m) (Nat.le_refl 32)
  bv_omega

theorem isStream_blockInstr (m : Mode) : isStream (blockInstr m) = false := by cases m <;> rfl

theorem isStream_streamInstr (m : Mode) : isStream (streamInstr m) = true := by cases m <;> rfl

section Invariant

variable {s t : State}

/-- A state on a core that runs no stream command is sound by the other clauses, with the file processor's positions as they were. -/
theorem Sound.of_noStream (h : Sound s) (hn : ∀ i pos, t.eng = .busy i pos → isStream i = false) (status : StatusLegal t.status)
    (rnd : t.be.rnd ≤ 32) (keys : t.rkValid = true → IsKeySchedule t.rk) (par : t.par = s.par) (inPos : t.fp.inPos = s.fp.inPos)
    (outPos : t.fp.outPos = s.fp.outPos) : Sound t where
  status := status
  rnd := rnd
  outPos := outPos ▸ h.outPos
  inPos := by rw [par, inPos]; exact h.inPos
  keys := keys
  stream := fun i pos he hs => by rw [hn i pos he] at hs; cases hs

/-- A response with a legal STATUS keeps the invariant: the core is idle after it. -/
theorem Sound.answerHost (h : Sound s) {st : Word} (hl : StatusLegal st) (r : Result) (io : Option IoInfo) :
    Sound (s.answerHost st r io) :=
  h.of_noStream nofun hl h.rnd h.keys rfl rfl rfl

/-- The end of a stream keeps the invariant: the schedule is no longer valid and the core is idle, whatever the end left of the
streams (R109). -/
theorem Sound.endStream (h : Sound s) {st : Word} (hl : StatusLegal st) (r : Result) (io : Option IoInfo) (mode : Mode)
    (phase : Phase) (host : HostSide) (eng : Eng) (ctr : Nat) :
    Sound (({ s with fp := { s.fp with mode := mode, phase := phase }, eng := eng, host := host, freeCtr := ctr } :
      State).discardKeys.answerHost st r io) :=
  h.of_noStream nofun hl h.rnd nofun rfl rfl rfl

/-- The host's script and what it has seen are no part of the invariant. -/
theorem Sound.of_host (h : Sound s) (ms : List HostMove) (seen : List PortValue) :
    Sound { s with host := { s.host with script := ms, seen := seen } } where
  status := h.status
  rnd := h.rnd
  outPos := h.outPos
  inPos := h.inPos
  keys := h.keys
  stream := fun i pos he hs hp =>
    have u := h.stream i pos he hs hp
    ⟨u.keyLength, u.schedule, u.delivered, u.inRange, u.accepted, u.fits⟩

/-- On an idle core the host's side is no part of the invariant. -/
theorem Sound.of_idle_host (h : Sound s) (he : s.eng = .idle) (host : HostSide) : Sound { s with host := host } :=
  h.of_noStream (fun _ _ hb => by cases he.symm.trans hb) h.status h.rnd h.keys rfl rfl rfl

theorem execKeyx_sound (h : Sound s) (hx : execKeyx s = .next t) : Sound t := by
  rcases execKeyx_cases s with ⟨hk, e⟩ | ⟨-, e⟩ <;> rw [← next_inj (e.symm.trans hx)]
  · exact h.of_noStream nofun statusLegal_ok h.rnd (fun _ => ⟨_, hk, rfl⟩) rfl rfl rfl
  · exact h.answerHost (statusLegal_err _) _ _

theorem execGf_sound (h : Sound s) (hx : execGf s = .next t) : Sound t := by
  rw [← next_inj hx]
  exact h.of_noStream nofun statusLegal_ok h.rnd h.keys rfl rfl rfl

theorem blockCommand_sound (h : Sound s) (m : Mode) : Sound (blockCommand m s) := by
  rcases blockCommand_cases m s with ⟨-, e⟩ | ⟨-, -, e⟩ | ⟨-, -, e⟩ <;> rw [e]
  · exact h.answerHost (statusLegal_err _) _ _
  · exact h.answerHost (statusLegal_err _) _ _
  · exact h.of_noStream nofun statusLegal_ok (engineAfter_rnd_le ..) h.keys rfl rfl rfl

theorem blockMicro_sound (h : Sound s) {m : Mode} {pos : BlockPos} (he : s.eng = .busy (blockInstr m) pos) :
    Sound (blockMicro (blockInstr m) m pos s) := by
  rcases blockMicro_cases m he with ⟨_, e⟩ | ⟨be, p, hrnd, e⟩ | e <;> rw [e]
  · exact h.answerHost (statusLegal_err _) _ _
  · refine h.of_noStream (fun i q hb => ?_) h.status (hrnd h.rnd) h.keys rfl rfl rfl
    cases hb
    exact isStream_blockInstr m
  · exact h.of_noStream nofun statusLegal_ok h.rnd h.keys rfl rfl rfl

/-- The invariant with a stream past its key load, as the loop and the phases READ, XFORM and WRITE have it. -/
structure InFlight (s : State) : Prop where
  sound : Sound s
  underWay : StreamUnderWay s

/-- A stream under way carries the clauses on IN_POS and on the stream with it. -/
theorem InFlight.of_underWay (u : StreamUnderWay s) (status : StatusLegal s.status) (rnd : s.be.rnd ≤ 32) (outPos : 8 ∣ s.fp.outPos)
    (keys : s.rkValid = true → IsKeySchedule s.rk) : InFlight s where
  underWay := u
  sound :=
    { status := status
      rnd := rnd
      outPos := outPos
      inPos := fun n hn => u.inRange.trans (u.fits n hn)
      keys := keys
      stream := fun _ _ _ _ _ => u }

/-- The key load puts a stream under way: nothing delivered, nothing written (R101). -/
theorem InFlight.keyLoaded (h : Sound s) (i : Instr) (m : Mode) (hk : s.host.ops.key.length = 32)
    (hf : StreamFits s.par s.host.ops) : InFlight (s.keyLoaded i m) :=
  .of_underWay ⟨hk, rfl, rfl, Nat.zero_le _, rfl, hf⟩ h.status h.rnd (Nat.dvd_zero 8) fun _ => ⟨_, hk, rfl⟩

/-- A served read delivers the next bytes and counts them in IN_POS (R102, R106). -/
theorem InFlight.delivered (h : InFlight s) (rest : List Answer) :
    InFlight { s.deliver rest with fp := s.fp.took (s.host.src.bytes.take 8) } := by
  obtain ⟨hs, u⟩ := h
  have hlen : s.host.src.bytes.length = s.host.ops.src.bytes.length - s.fp.inPos := by rw [u.delivered, List.length_drop]
  have hin := u.inRange
  refine .of_underWay ⟨u.keyLength, u.schedule, ?_, ?_, u.accepted, u.fits⟩ hs.status hs.rnd hs.outPos hs.keys
  · show s.host.src.bytes.drop 8 = s.host.ops.src.bytes.drop (s.fp.inPos + (s.host.src.bytes.take 8).length)
    rw [List.length_take, hlen, u.delivered, List.drop_drop, List.drop_eq_drop_iff]
    omega
  · show s.fp.inPos + (s.host.src.bytes.take 8).length ≤ s.host.ops.src.bytes.length
    rw [List.length_take, hlen]
    omega

/-- The transform of a chunk moves no byte of the streams (R103). -/
theorem InFlight.transformed (h : InFlight s) {be : BlockEngine} {fp : FileProc} {eng : Eng} (hrnd : be.rnd ≤ 32)
    (hin : fp.inPos = s.fp.inPos) (hout : fp.outPos = s.fp.outPos) : InFlight { s with be := be, fp := fp, eng := eng } := by
  obtain ⟨hs, u⟩ := h
  refine .of_underWay ⟨u.keyLength, u.schedule, ?_, ?_, ?_, u.fits⟩ hs.status hrnd ?_ hs.keys
  · exact hin ▸ u.delivered
  · exact hin ▸ u.inRange
  · exact hout ▸ u.accepted
  · exact hout ▸ hs.outPos

/-- An accepted write appends 8 bytes to the sink and counts them in OUT_POS (R104). -/
theorem InFlight.accepted (h : InFlight s) (rest : List Answer) :
    InFlight { s.sinkTake s.fp.xblk rest with fp := { s.fp with outPos := s.fp.outPos + 8, phase := .read } } := by
  obtain ⟨hs, u⟩ := h
  refine .of_underWay ⟨u.keyLength, u.schedule, u.delivered, u.inRange, ?_, u.fits⟩ hs.status hs.rnd
    (Nat.dvd_add hs.outPos (Nat.dvd_refl 8)) hs.keys
  show (s.host.snk ++ s.fp.xblk.toList).length = s.fp.outPos + 8
  rw [List.length_append, Vector.length_toList, u.accepted]

theorem readStep_sound (h : InFlight s) : Sound s.readStep := by
  rcases readStep_cases s with ⟨rest, _, e⟩ | ⟨info, rest, _, e⟩ | ⟨_, _, e⟩ <;> rw [e]
  · exact (h.delivered rest).sound
  · exact h.sound.endStream (statusLegal_err _) _ _ s.fp.mode s.fp.phase _ s.eng s.freeCtr
  · exact h.sound

theorem writeStep_sound (h : InFlight s) : Sound s.writeStep := by
  rcases writeStep_cases s with ⟨rest, _, e⟩ | ⟨info, rest, _, e⟩ | ⟨_, _, e⟩ <;> rw [e]
  · exact (h.accepted rest).sound
  · exact h.sound.endStream (statusLegal_err _) _ _ s.fp.mode s.fp.phase _ s.eng _
  · exact h.sound

theorem doneStep_sound (h : Sound s) : Sound s.doneStep :=
  h.endStream statusLegal_ok _ _ s.fp.mode s.fp.phase s.host s.eng s.freeCtr

theorem keyRefused_sound (h : Sound s) (i : Instr) (m : Mode) (e : Err) : Sound ((s.openStream i m).discardKeys.raise e) :=
  h.endStream (statusLegal_err e) _ _ m .keyload _ _ s.freeCtr

theorem streamMicro_sound (h : Sound s) {m : Mode} {pos : BlockPos} (he : s.eng = .busy (streamInstr m) pos)
    (hx : streamMicro (streamInstr m) m pos s = .next t) : Sound t := by
  rcases streamMicro_next hx with hl | ⟨hp, ht⟩
  · rcases keyLoadStep_next hl with rfl | ⟨hk, hf, rfl⟩
    · exact keyRefused_sound h _ m _
    · exact (InFlight.keyLoaded h _ m hk hf).sound
  · have hfly : InFlight s := ⟨h, h.stream _ pos he (isStream_streamInstr m) hp⟩
    rcases ht with rfl | rfl | rfl | rfl
    · exact readStep_sound hfly
    · obtain ⟨be, fp, p, hrnd, hin, hout, e⟩ := xformMicro_eq m he
      rw [e]; exact (hfly.transformed (hrnd h.rnd) hin hout).sound
    · exact writeStep_sound hfly
    · exact doneStep_sound h

/-- From the loop's head, a read that leads to XFORM and the transform after it keep a stream in flight. -/
theorem xformStep_inFlight (h : InFlight s) {m : Mode} (hp : s.fp.phase = .read) (hx : s.readStep.fp.phase = .xform) :
    InFlight (s.readStep.xformStep m) := by
  obtain ⟨rest, -, -, e⟩ := readStep_xform hp hx
  rw [e]; exact (h.delivered rest).transformed (engineAfter_rnd_le ..) rfl rfl

theorem streamLoop_sound (h : InFlight s) (m : Mode) (n : Nat) (hp : s.fp.phase = .read) : Sound (State.streamLoop m n s) := by
  refine streamLoop_induction (m := m) (P := fun u => InFlight u ∧ u.fp.phase = .read) (Q := Sound)
    ?outOfReads ?readStops ?exhausted ?writeStops ?again n s ⟨h, hp⟩
  case outOfReads => exact fun u ⟨hu, _⟩ => hu.sound
  case readStops => exact fun u ⟨hu, _⟩ _ _ => readStep_sound hu
  case exhausted => exact fun u ⟨hu, _⟩ _ => doneStep_sound (readStep_sound hu)
  case writeStops => exact fun u ⟨hu, hr⟩ hx _ => writeStep_sound (xformStep_inFlight hu hr hx)
  case again =>
    intro u ⟨hu, hr⟩ hx hw
    refine ⟨?_, hw⟩
    obtain ⟨rest, -, e⟩ := writeStep_read rfl hw
    rw [e]; exact (xformStep_inFlight hu hr hx).accepted rest

theorem streamCommand_sound (h : Sound s) {i : Instr} {m : Mode} (hx : streamCommand i m s = .next t) : Sound t := by
  rcases streamCommand_next hx with rfl | ⟨hk, hf, rfl⟩
  · exact keyRefused_sound h i m _
  · exact streamLoop_sound (.keyLoaded h i m hk hf) m _ rfl

/-- A whole command keeps the invariant. -/
theorem exec_sound (h : Sound s) {i : Instr} (hx : exec i s = .next t) : Sound t := by
  induction i using instr_families with
  | keyx => exact execKeyx_sound h hx
  | gf => exact execGf_sound h hx
  | block m => rw [exec_blockInstr] at hx; rw [← next_inj hx]; exact blockCommand_sound h m
  | stream m => rw [exec_streamInstr] at hx; exact streamCommand_sound h hx

/-- A micro-step keeps the invariant. -/
theorem microStep_sound (h : Sound s) (hx : microStep s = .next t) : Sound t := by
  cases microStep_kind hx with
  | idle ht => exact ht ▸ h
  | keyx pos _ hx => exact execKeyx_sound h hx
  | gf pos _ hx => exact execGf_sound h hx
  | block m pos he ht => subst ht; exact blockMicro_sound h he
  | stream m pos he hx => exact streamMicro_sound h he hx

/-- An acceptance keeps the invariant: a stream command stands before its key load (R104). -/
theorem beginCommand_sound (h : Sound s) (i : Instr) : Sound (s.beginCommand i) := by
  rw [beginCommand_eq]
  refine ⟨h.status, h.rnd, h.outPos, h.inPos, h.keys, fun j pos he hs hp => ?_⟩
  cases he
  exact absurd (if_pos hs) hp

/-- Reset gives the invariant whatever state it ends (R36, R130). -/
theorem resetCore_sound (s : State) : Sound s.resetCore where
  status := statusLegal_zero
  rnd := by simp [BlockEngine.reset]
  outPos := Nat.dvd_zero 8
  inPos := fun _ _ => Nat.zero_le _
  keys := nofun
  stream := nofun

end Invariant

/-- Settles O53: each kind of step keeps the invariant. -/
theorem everyStepKeepsTheInvariant : Obligations.EveryStepKeepsTheInvariant := by
  intro s t h hstep
  cases step_kind hstep with
  | micro rest hx => exact microStep_sound (h.of_host rest s.host.seen) hx
  | reset rest _ ht => subst ht; exact resetCore_sound _
  | read rest v ht => subst ht; exact h.of_host rest _
  | issue c rest i _ he _ hx => exact exec_sound (h.of_idle_host he ((s.withScript rest).present c).host) hx
  | start c rest i he ht => subst ht; exact beginCommand_sound (h.of_idle_host he ((s.withScript rest).present c).host) i
  | illegal c rest he ht =>
    subst ht; exact (h.of_idle_host he ((s.withScript rest).present c).host).answerHost (statusLegal_err _) _ _
  | cut n rest he ht => subst ht; exact h.of_idle_host he _

/-- Settles O54: the machine after reset is itself reset. -/
theorem resetHasTheInvariant : Obligations.ResetHasTheInvariant := resetCore_sound State.reset

/-! ### Acceptance, port reads and the state after reset -/

/-- Settles O7: an idle core takes the started command and accepts it. -/
theorem startedCommandMakesTheCoreBusy : Obligations.StartedCommandMakesTheCoreBusy := by
  intro s c rest i hw he hs hd
  have hstart : hostStep s = startCommand c (s.withScript rest) := by simp only [hostStep, hs, he]
  rw [step_eq_hostStep hw, hstart]
  simp only [startCommand, hd, beginCommand_eq]
  rfl

theorem hostStep_read {s : State} {p : Port} {rest : List HostMove} (hs : s.host.script = .read p :: rest) :
    hostStep s = readPort p (s.withScript rest) := by
  simp only [hostStep, hs]

/-- Settles O10: which value each port has decides the read. -/
theorem portReadsShowRegisters : Obligations.PortReadsShowRegisters := by
  intro s p rest hw hs v
  rw [step_eq_hostStep hw, hostStep_read hs]
  constructor
  · intro hv
    have hval : (s.withScript rest).portValue p = some v := by
      rcases hv with ⟨rfl, rfl⟩ | ⟨rfl, rfl⟩ | ⟨rfl, rfl, held⟩ | ⟨rfl, rfl, held⟩
      · rfl
      · rfl
      · exact if_pos held
      · exact if_pos held
    exact readPort_of_value hval
  · intro hn
    have hval : (s.withScript rest).portValue p = none := by
      rcases hn with ⟨rfl, free⟩ | ⟨rfl, free⟩ <;> simp [State.portValue, free]
    exact readPort_of_noValue hval

/-- Settles O12: every field as R36 lists it; the default table's rows are checked to be permutations. -/
theorem resetStateAsListed : Obligations.ResetStateAsListed :=
  ⟨rfl, rfl, rfl, rfl, by decide, rfl, rfl⟩

end Sys2Proof.Machine
end

section
/-!
PROOFS. The statements about the encoding of a command (30_encoding): its word, its text, which step runs it, and the operand fields
it reads.
-/

namespace Sys2Proof.Machine

/-! ### Command words -/

/-- The laws of each command's encoding, for any command. -/
theorem encoding_statement : ∀ i : Instr, Laws.Encoding.Statement i
  | .keyx => Laws.Encoding.keyx
  | .gf => Laws.Encoding.gf
  | .encb => Laws.Encoding.encb
  | .decb => Laws.Encoding.decb
  | .pse => Laws.Encoding.pse
  | .psd => Laws.Encoding.psd

@[simp] theorem decode_encode (i : Instr) : decode (encode i) = some i := by
  obtain ⟨-, -, -, hdecode⟩ := encoding_statement i
  exact hdecode

@[simp] theorem fieldsOf_encode (i : Instr) : fieldsOf (encode i) = i.fields := by
  obtain ⟨-, hfields, -, -⟩ := encoding_statement i
  exact hfields

/-- Every row of the opcode map matches all 32 bits, against its command's own word (R61). -/
theorem opcodeTable_row : ∀ r ∈ opcodeTable, r.mask = BitVec.allOnes 32 ∧ r.pattern = encode r.instr := by decide

/-- A word is a row's exactly when it is the word of the row's command (R61). -/
theorem hits_iff {r : OpcodeRow} (hr : r ∈ opcodeTable) (w : Word) : r.hits w = true ↔ w = encode r.instr := by
  obtain ⟨hmask, hpattern⟩ := opcodeTable_row r hr
  rw [OpcodeRow.hits, hmask, hpattern, BitVec.and_allOnes, decide_eq_true_iff]

/-- Decoding and encoding are inverse to each other (R58-R62). -/
theorem decode_eq_some_iff {w : Word} {i : Instr} : decode w = some i ↔ w = encode i := by
  constructor
  · intro h
    obtain ⟨r, hfind, rfl⟩ := Option.map_eq_some_iff.mp h
    exact (hits_iff (List.mem_of_find?_eq_some hfind) w).mp (List.find?_some (p := fun r : OpcodeRow => r.hits w) hfind)
  · rintro rfl
    exact decode_encode i

theorem decode_eq_none_iff {w : Word} : decode w = none ↔ ∀ i, w ≠ encode i := by
  simp only [Option.eq_none_iff_forall_ne_some, ne_eq, decode_eq_some_iff]

/-- Settles O1: every word that decodes is the word of one of the six commands. -/
theorem onlyTheSixWordsDecode : Obligations.OnlyTheSixWordsDecode := by
  refine ⟨decode_encode .keyx, decode_encode .gf, decode_encode .encb, decode_encode .decb, decode_encode .pse,
    decode_encode .psd, fun w hw => decode_eq_none_iff.mpr ?_⟩
  rintro i rfl
  revert hw
  cases i <;> decide

/-- Settles O2: a word decodes to i exactly when it is the word of i. -/
theorem encodeIsTheOnlyWord : Obligations.EncodeIsTheOnlyWord := by
  intro i
  obtain ⟨hwf, -⟩ := encoding_statement i
  exact ⟨hwf, decode_encode i, fun w => decode_eq_some_iff.mp⟩

/-! ### The fields of a word -/

/-- A word is its fields put together (R58). -/
theorem wordOf_fieldsOf (w : Word) : wordOf (fieldsOf w) = w := by
  apply BitVec.eq_of_getLsbD_eq
  intro i hi
  simp only [wordOf, fieldsOf, BitVec.getLsbD_append, BitVec.getLsbD_extractLsb']
  interval_cases i <;> rfl

theorem decode_eq_some_iff_fieldsOf {w : Word} {i : Instr} : decode w = some i ↔ fieldsOf w = i.fields := by
  rw [decode_eq_some_iff]
  constructor
  · rintro rfl
    exact fieldsOf_encode i
  · intro h
    rw [encode, ← h, wordOf_fieldsOf]

/-- The legal fields are those of the six commands (R59, R60, R63). -/
theorem legal_iff (f : CmdFields) : f.legal = true ↔ ∃ i : Instr, f = i.fields := by
  constructor
  · obtain ⟨reserved, fn, m⟩ := f
    intro h
    simp only [CmdFields.legal, Bool.and_eq_true, Bool.or_eq_true, decide_eq_true_iff] at h
    obtain ⟨rfl, (rfl | rfl) | ⟨rfl | rfl, rfl⟩⟩ := h
    · rcases BitVec.eq_zero_or_eq_one m with rfl | rfl
      · exact ⟨.encb, rfl⟩
      · exact ⟨.decb, rfl⟩
    · rcases BitVec.eq_zero_or_eq_one m with rfl | rfl
      · exact ⟨.pse, rfl⟩
      · exact ⟨.psd, rfl⟩
    · exact ⟨.keyx, rfl⟩
    · exact ⟨.gf, rfl⟩
  · rintro ⟨i, rfl⟩
    obtain ⟨hwf, -⟩ := encoding_statement i
    exact hwf

/-- R63's list of the illegal fields. -/
theorem legal_eq_false_iff (f : CmdFields) :
    f.legal = false ↔ (f.fn = 0 ∨ 5 ≤ f.fn ∨ (f.m = 1 ∧ (f.fn = 1 ∨ f.fn = 2)) ∨ f.reserved ≠ 0) := by
  simp only [CmdFields.legal, Bool.and_eq_false_iff, Bool.or_eq_false_iff, decide_eq_false_iff_not]
  bv_omega

theorem decode_eq_none_iff_not_legal (w : Word) : decode w = none ↔ (fieldsOf w).legal = false := by
  rw [Option.eq_none_iff_forall_ne_some, ← Bool.not_eq_true, legal_iff, not_exists]
  exact forall_congr' fun i => not_congr decode_eq_some_iff_fieldsOf

/-! ### The step that takes a command -/

theorem hostStep_issue {s : State} {c : Command} {rest : List HostMove} (he : s.eng = .idle)
    (hs : s.host.script = .issue c :: rest) : hostStep s = issueCommand c (s.withScript rest) := by
  simp only [hostStep, hs, he]

theorem hostStep_start {s : State} {c : Command} {rest : List HostMove} (he : s.eng = .idle)
    (hs : s.host.script = .start c :: rest) : hostStep s = startCommand c (s.withScript rest) := by
  simp only [hostStep, hs, he]

theorem issueCommand_of_decode {c : Command} {i : Instr} (h : decode c.cmd = some i) (s : State) :
    issueCommand c s = exec i (s.present c) := by
  simp only [issueCommand, h]

theorem issueCommand_illegal {c : Command} (h : decode c.cmd = none) (s : State) :
    issueCommand c s = .next ((s.present c).raise (.illegalCommand c.cmd)) := by
  simp only [issueCommand, h]

theorem startCommand_illegal {c : Command} (h : decode c.cmd = none) (s : State) :
    startCommand c s = .next ((s.present c).raise (.illegalCommand c.cmd)) := by
  simp only [startCommand, h]

/-- Settles O3: an illegal word is one whose fields are no command's, and either move answers it with IllegalCommand. -/
theorem illegalWordsWriteOnlyStatus : Obligations.IllegalWordsWriteOnlyStatus := by
  refine ⟨fun w => (decode_eq_none_iff_not_legal w).trans (legal_eq_false_iff _), fun s c rest hw he hs hd => ?_⟩
  have hraise : step s = .next (((s.withScript rest).present c).raise (.illegalCommand c.cmd)) := by
    rw [step_eq_hostStep hw]
    rcases hs with hs | hs
    · rw [hostStep_issue he hs, issueCommand_illegal hd]
    · rw [hostStep_start he hs, startCommand_illegal hd]
  rw [hraise, State.raise_eq, status_illegalCommand, he]
  rfl

/-- Settles O5: the idle core takes the issued command and decodes it. -/
theorem stepRunsTheDecodedCommand : Obligations.StepRunsTheDecodedCommand := by
  intro s c rest i hw he hs hd
  rw [step_eq_hostStep hw, hostStep_issue he hs, issueCommand_of_decode hd]
  rfl

/-- Settles O6: the placed word is an issued command on an idle core. -/
theorem placedWordIsRunNext : Obligations.PlacedWordIsRunNext := by
  intro s w i hw hlt hd
  rw [decodeTableWord, if_pos hlt] at hd
  exact stepRunsTheDecodedCommand (s.withFetchWord 32 w) ⟨BitVec.ofNat 32 w, s.host.ops⟩ s.host.script i hw rfl rfl hd

/-! ### Text -/

theorem hexValue?_hexChar : ∀ n < 16, hexValue? (hexChar n) = some n := by decide

theorem isHex_hexChar {n : Nat} (h : n < 16) : isHex (hexChar n) = true := by
  rw [isHex, hexValue?_hexChar n h, Option.isSome_some]

/-- The hex digits of a word have the word's value. -/
theorem digitsValue_hexDigits8 (w : Word) : digitsValue 16 (hexDigits8 w) = w.toNat := by
  have hval : ∀ k, (hexValue? (hexChar ((w >>> k).toNat % 16))).getD 0 = w.toNat / 2 ^ k % 16 := fun k => by
    rw [hexValue?_hexChar _ (Nat.mod_lt _ (by decide)), Option.getD_some, BitVec.toNat_ushiftRight, Nat.shiftRight_eq_div_pow]
  simp only [digitsValue, hexDigits8, List.map_cons, List.map_nil, List.foldl_cons, List.foldl_nil, hval]
  omega

theorem isHex_of_mem_hexDigits8 {w : Word} {c : Char} (h : c ∈ hexDigits8 w) : isHex c = true := by
  obtain ⟨k, -, rfl⟩ := List.mem_map.mp h
  exact isHex_hexChar (Nat.mod_lt _ (by decide))

/-- `0x` and 1 to 8 hex digits to the end of the text are a word (R67). -/
theorem parseWord_hex {ds : Text} (hne : ds ≠ []) (hlen : ds.length ≤ 8) (hhex : ∀ c ∈ ds, isHex c = true) :
    parseWord ("0x".toList ++ ds) = some (BitVec.ofNat 32 (digitsValue 16 ds), []) := by
  have hafter : afterText? "0x".toList ("0x".toList ++ ds) = some ds := rfl
  have htake : ds.takeWhile isHex = ds := List.takeWhile_eq_self_iff.mpr hhex
  have hdrop : ds.dropWhile isHex = [] := List.dropWhile_eq_nil_iff.mpr hhex
  have hcount : ¬ (ds.isEmpty = true ∨ 8 < ds.length) := by
    rintro (h | h)
    · exact hne (List.isEmpty_iff.mp h)
    · omega
  rw [parseWord, hafter]
  simp only [htake, hdrop, if_neg hcount]

/-- A `.word` line assembles to the word its operand spells (R66). -/
theorem assemble_wordLine {t : Text} {w : Word} (ht : parseWord (skipBlanks t) = some (w, [])) :
    assemble (".word ".toList ++ t) = some { cmd := w, ops := OperandRecord.empty } := by
  have hskip : skipBlanks (".word ".toList ++ t) = ".word ".toList ++ t := rfl
  have hmnemonic : (".word ".toList ++ t).takeWhile (· != ' ') = ".word".toList := rfl
  have hrest : skipBlanks ((".word ".toList ++ t).dropWhile (· != ' ')) = skipBlanks t := rfl
  have hlower : ".word".toList.map Char.toLower = ".word".toList := by decide
  unfold assemble
  simp only [hskip, hmnemonic, hrest, hlower, ht, if_true]
  rfl

/-- Settles O4: the printed digits spell the word they were printed from. -/
theorem disassemblyReassembles : Obligations.DisassemblyReassembles := by
  refine ⟨fun w i h => by simp only [disassemble, h], fun w h => ?_⟩
  have hprint : disassemble w = { text := ".word 0x".toList ++ hexDigits8 w, illegal := true } := by
    simp only [disassemble, h]
  refine ⟨hprint, ?_⟩
  have hparse : parseWord ("0x".toList ++ hexDigits8 w) = some (w, []) := by
    rw [parseWord_hex (by simp [hexDigits8]) (by simp [hexDigits8]) fun _ => isHex_of_mem_hexDigits8, digitsValue_hexDigits8,
      BitVec.ofNat_toNat, BitVec.setWidth_eq]
  rw [hprint]
  exact assemble_wordLine (t := "0x".toList ++ hexDigits8 w) hparse

/-! ### The operand fields a command reads -/

section UnreadOperands

variable (s : State) (ops : OperandRecord)

@[simp] theorem State.withOps_host : (s.withOps ops).host = { s.host with ops := ops } := rfl

theorem srcRead_withOps : (s.withOps ops).srcRead = (s.srcRead.1, s.srcRead.2.withOps ops) := by
  simp only [State.srcRead, State.withOps_host]
  rcases s.host.src.answers with _ | ⟨_ | _ | _, rest⟩ <;> rfl

theorem sinkWrite_withOps (v : Block) : (s.withOps ops).sinkWrite v = ((s.sinkWrite v).1, (s.sinkWrite v).2.withOps ops) := by
  simp only [State.sinkWrite, State.withOps_host]
  rcases s.host.snkAnswers with _ | ⟨_ | _ | _, rest⟩ <;> rfl

theorem readStep_withOps : (s.withOps ops).readStep = s.readStep.withOps ops := by
  simp only [State.readStep, srcRead_withOps]
  rcases s.srcRead with ⟨_ | _ | _, u⟩ <;> rfl

theorem writeStep_withOps : (s.withOps ops).writeStep = s.writeStep.withOps ops := by
  have hxblk : (s.withOps ops).fp.xblk = s.fp.xblk := rfl
  simp only [State.writeStep, hxblk, sinkWrite_withOps]
  rcases s.sinkWrite s.fp.xblk with ⟨_ | _ | _, u⟩ <;> rfl

theorem xformStep_withOps (m : Mode) : (s.withOps ops).xformStep m = (s.xformStep m).withOps ops := rfl

theorem doneStep_withOps : (s.withOps ops).doneStep = s.doneStep.withOps ops := rfl

/-- Past its key load a stream command does not look at the operand record. -/
theorem streamLoop_withOps (m : Mode) (n : Nat) :
    State.streamLoop m n (s.withOps ops) = (State.streamLoop m n s).withOps ops := by
  induction n generalizing s with
  | zero => rfl
  | succ n ih =>
    have hphase : ∀ u : State, (u.withOps ops).fp.phase = u.fp.phase := fun _ => rfl
    simp only [streamLoop_succ, readStep_withOps, xformStep_withOps, writeStep_withOps, doneStep_withOps, hphase, ih]
    cases s.readStep.fp.phase with
    | xform => cases (s.readStep.xformStep m).writeStep.fp.phase <;> rfl
    | keyload | read | write | done => rfl

end UnreadOperands

/-! The meanings of KEYX, of the block commands and of the stream commands, one equation for each outcome. -/

theorem execKeyx_of_keyLength {s : State} (hk : s.host.ops.key.length = 32) :
    execKeyx s = .next ({ s with rk := keySchedule s.host.ops.key, rkValid := true }.respond
      (.rkout (keySchedule s.host.ops.key))) := by
  rcases execKeyx_cases s with ⟨-, e⟩ | ⟨hne, -⟩
  · exact e
  · exact absurd hk hne

theorem execKeyx_of_badKey {s : State} (hne : s.host.ops.key.length ≠ 32) :
    execKeyx s = .next (s.raise (.invalidKeyLength s.host.ops.key.length)) := by
  rcases execKeyx_cases s with ⟨hk, -⟩ | ⟨-, e⟩
  · exact absurd hk hne
  · exact e

theorem blockCommand_of_badBlk {m : Mode} {s : State} (hne : s.host.ops.blk.length ≠ 8) :
    blockCommand m s = s.raise (.invalidBlockLength s.host.ops.blk.length) := by
  rcases blockCommand_cases m s with ⟨-, e⟩ | ⟨hb, -⟩ | ⟨hb, -⟩
  · exact e
  · exact absurd hb hne
  · exact absurd hb hne

theorem blockCommand_of_noKeys {m : Mode} {s : State} (hb : s.host.ops.blk.length = 8) (hv : s.rkValid = false) :
    blockCommand m s = s.raise .noRoundKeys := by
  rcases blockCommand_cases m s with ⟨hne, -⟩ | ⟨-, -, e⟩ | ⟨-, hv', -⟩
  · exact absurd hb hne
  · exact e
  · exact absurd (hv.symm.trans hv') Bool.false_ne_true

theorem blockCommand_of_keys {m : Mode} {s : State} (hb : s.host.ops.blk.length = 8) (hv : s.rkValid = true) :
    blockCommand m s =
      { s with
        be := engineAfter s.par m s.rk s.blkOperand
        blkout := cipherCore s.par m s.rk s.blkOperand
        blkHeld := true }.respond (.blkout (cipherCore s.par m s.rk s.blkOperand)) := by
  rcases blockCommand_cases m s with ⟨hne, -⟩ | ⟨-, hv', -⟩ | ⟨-, -, e⟩
  · exact absurd hb hne
  · exact absurd (hv'.symm.trans hv) Bool.false_ne_true
  · exact e

theorem streamCommand_of_fits {i : Instr} {m : Mode} {s : State} (hk : s.host.ops.key.length = 32)
    (hf : StreamFits s.par s.host.ops) :
    streamCommand i m s =
      .next (State.streamLoop m (streamReads s.host.ops.src.bytes.length) (s.keyLoaded i m)) := by
  rcases streamCommand_cases i m s with ⟨hne, -⟩ | ⟨-, hl, -⟩ | ⟨-, -, e⟩
  · exact absurd hk hne
  · rw [(streamTooLong_openStream s i m).mpr hf] at hl
    cases hl
  · exact e

theorem streamCommand_of_badKey {i : Instr} {m : Mode} {s : State} (hne : s.host.ops.key.length ≠ 32) :
    streamCommand i m s =
      .next ((s.openStream i m).discardKeys.raise (.invalidKeyLength s.host.ops.key.length)) := by
  rcases streamCommand_cases i m s with ⟨-, e⟩ | ⟨hk, -⟩ | ⟨hk, -⟩
  · exact e
  · exact absurd hk hne
  · exact absurd hk hne

/-! With the fields a command reads unchanged, everything it computes is unchanged. -/

section SameRead

variable {s t : State} {ops : OperandRecord}

theorem execKeyx_withOps (hkey : s.host.ops.key = ops.key) (h : execKeyx s = .next t) :
    execKeyx (s.withOps ops) = .next (t.withOps ops) := by
  obtain ⟨a, k, key, blk, src, snk⟩ := ops
  obtain rfl : s.host.ops.key = key := hkey
  rcases execKeyx_cases s with ⟨hk, e⟩ | ⟨hne, e⟩ <;> rw [← next_inj (e.symm.trans h)]
  · exact execKeyx_of_keyLength (s := s.withOps _) hk
  · exact execKeyx_of_badKey (s := s.withOps _) hne

theorem execGf_withOps (ha : s.host.ops.a = ops.a) (hk : s.host.ops.k = ops.k) (h : execGf s = .next t) :
    execGf (s.withOps ops) = .next (t.withOps ops) := by
  obtain ⟨a, k, key, blk, src, snk⟩ := ops
  obtain rfl : s.host.ops.a = a := ha
  obtain rfl : s.host.ops.k = k := hk
  rw [← next_inj h]
  rfl

theorem blockCommand_withOps (m : Mode) (hblk : s.host.ops.blk = ops.blk) :
    blockCommand m (s.withOps ops) = (blockCommand m s).withOps ops := by
  obtain ⟨a, k, key, blk, src, snk⟩ := ops
  obtain rfl : s.host.ops.blk = blk := hblk
  rcases blockCommand_cases m s with ⟨hne, e⟩ | ⟨hb, hv, e⟩ | ⟨hb, hv, e⟩ <;> rw [e]
  · exact blockCommand_of_badBlk (s := s.withOps _) hne
  · exact blockCommand_of_noKeys (s := s.withOps _) hb hv
  · exact blockCommand_of_keys (s := s.withOps _) hb hv

theorem streamCommand_withOps {i : Instr} {m : Mode} (hkey : s.host.ops.key = ops.key) (hsrc : s.host.ops.src = ops.src)
    (hsnk : s.host.ops.snk = ops.snk) (h : streamCommand i m s = .next t) :
    streamCommand i m (s.withOps ops) = .next (t.withOps ops) := by
  obtain ⟨a, k, key, blk, src, snk⟩ := ops
  obtain rfl : s.host.ops.key = key := hkey
  obtain rfl : s.host.ops.src = src := hsrc
  obtain rfl : s.host.ops.snk = snk := hsnk
  rcases streamCommand_cases i m s with ⟨hne, e⟩ | ⟨-, -, e⟩ | ⟨hk, hl, e⟩ <;> rw [e] at h
  · rw [← next_inj h]
    exact streamCommand_of_badKey (s := s.withOps _) hne
  · cases h
  · rw [← next_inj h, ← streamLoop_withOps]
    exact streamCommand_of_fits (s := s.withOps _) hk ((streamTooLong_openStream s i m).mp hl)

end SameRead

theorem sameRead_blockInstr {m : Mode} {x y : OperandRecord} (h : SameRead (blockInstr m) x y) : x.blk = y.blk := by
  cases m <;> exact h

theorem sameRead_streamInstr {m : Mode} {x y : OperandRecord} (h : SameRead (streamInstr m) x y) :
    x.key = y.key ∧ x.src = y.src ∧ x.snk = y.snk := by
  cases m <;> exact h

/-- Settles O47: each kind of command does the same on two records that agree on the fields it reads. -/
theorem unreadOperandsHaveNoEffect : Obligations.UnreadOperandsHaveNoEffect := by
  intro i s t ops hsame h
  induction i using instr_families with
  | keyx => exact execKeyx_withOps hsame h
  | gf =>
    obtain ⟨ha, hk⟩ := hsame
    exact execGf_withOps ha hk h
  | block m =>
    rw [exec_blockInstr] at h ⊢
    rw [← next_inj h, blockCommand_withOps m (sameRead_blockInstr hsame)]
  | stream m =>
    obtain ⟨hkey, hsrc, hsnk⟩ := sameRead_streamInstr hsame
    rw [exec_streamInstr] at h ⊢
    exact streamCommand_withOps hkey hsrc hsnk h

end Sys2Proof.Machine
end

section
/-!
PROOFS. The statements about the S-box ROM (40_sbox): which tables it may hold, its read in and out of range, the substitution lane by
lane, and how GF shows every entry.
-/

namespace Sys2Proof.Machine

/-! ### Reading the ROM -/

/-- A row is a permutation when every nibble stands in it (R74). -/
theorem rowOk_iff (row : Vector Nibble 16) : SBox.rowOk row = true ↔ ∀ v : Nibble, v ∈ row := by
  simp only [SBox.rowOk, List.all_eq_true, List.mem_range, List.contains_iff_mem, Vector.mem_toList_iff]
  constructor
  · intro h v
    have hv : BitVec.ofNat 4 v.toNat ∈ row := h v.toNat v.isLt
    rwa [BitVec.ofNat_toNat, BitVec.setWidth_eq] at hv
  · exact fun h n _ => h (BitVec.ofNat 4 n)

theorem mem_row_iff (t : SBox) (i : Fin 8) (v : Nibble) : v ∈ t[i] ↔ ∃ c : Nibble, romRead t i c = v := by
  rw [Vector.mem_iff_getElem]
  constructor
  · rintro ⟨n, hn, hv⟩
    exact ⟨BitVec.ofNatLT n hn, hv⟩
  · rintro ⟨c, hv⟩
    exact ⟨c.toNat, c.isLt, hv⟩

/-- A valid table's rows reach every nibble (R74). -/
theorem sbox_wellFormed_iff (t : SBox) : t.wellFormed = true ↔ ∀ i : Fin 8, Function.Surjective (romRead t i) := by
  simp only [SBox.wellFormed, List.all_eq_true, Vector.mem_toList_iff, rowOk_iff, Function.Surjective, ← mem_row_iff]
  constructor
  · exact fun h i => h t[i] (Vector.getElem_mem i.isLt)
  · intro h row hrow
    obtain ⟨i, hi, rfl⟩ := Vector.getElem_of_mem hrow
    exact h ⟨i, hi⟩

/-- A row of a valid table reads no nibble twice: a surjection of a finite type onto itself is injective. -/
theorem romRead_injective {t : SBox} (h : t.wellFormed = true) (i : Fin 8) : Function.Injective (romRead t i) :=
  Finite.injective_iff_surjective.mpr ((sbox_wellFormed_iff t).mp h i)

theorem step_of_badTable {s : State} (h : s.par.wellFormed = false) : step s = .refused .invalidTable := by
  simp [step, h]

theorem romRead?_eq_none_iff (t : SBox) (row col : Nat) : romRead? t row col = none ↔ ¬ (row < 8 ∧ col < 16) := by
  by_cases h : row < 8 ∧ col < 16 <;> simp [romRead?, h]

/-- Settles O11: a row that misses a nibble is not a permutation, so the table fails the check before every step. -/
theorem badTableAndBadIndexRefused : Obligations.BadTableAndBadIndexRefused := by
  constructor
  · intro s i v hmiss
    refine step_of_badTable (Bool.eq_false_iff.mpr fun hwf => ?_)
    obtain ⟨c, hc⟩ := (sbox_wellFormed_iff s.par.sbox).mp hwf i v
    exact hmiss c hc
  · intro t row col
    rw [romRead?_eq_none_iff]
    omega

/-! ### The substitution -/

/-- The lowest lane of a word put together from lanes is the last one. -/
theorem lowLane_append {n : Nat} (hi : BitVec n) (lo : Nibble) : (hi ++ lo).extractLsb' 0 4 = lo :=
  BitVec.extractLsb'_append_eq_right

/-- A higher lane lies in what stands before the last one. -/
theorem higherLane_append {n : Nat} (hi : BitVec n) (lo : Nibble) (start : Nat) :
    (hi ++ lo).extractLsb' (start + 4) 4 = hi.extractLsb' start 4 :=
  BitVec.extractLsb'_append_eq_of_le (Nat.le_add_left 4 start)

/-- A lane of the substituted word is its own row's entry at its own input lane (R72). -/
theorem nibble_subst (t : SBox) (x : Word) (i : Fin 8) : nibble (subst t x) i = romRead t i (nibble x i) := by
  rw [nibble, subst]
  fin_cases i <;> simp [higherLane_append, lowLane_append]

/-- Settles O15: Subst puts the eight entries together, and a lane of the whole is its own entry. -/
theorem substWorksLaneByLane : Obligations.SubstWorksLaneByLane := nibble_subst

theorem subst_injective {t : SBox} (h : t.wellFormed = true) : Function.Injective (subst t) := by
  intro x y hxy
  refine word_ext_nibbles x y fun i => romRead_injective h i ?_
  rw [← nibble_subst, ← nibble_subst, hxy]

/-- Settles O16: no two words have the same lanes after the substitution, and there are finitely many words. -/
theorem substIsBijective : Obligations.SubstIsBijective :=
  fun _ h => Finite.injective_iff_bijective.mp (subst_injective h)

/-! ### The ROM seen through GF -/

theorem roundG_rotThenSub {p : Params} (h : p.gOrder = .rotThenSub) (a k : Word) :
    roundG p a k = subst p.sbox (rotl32 (a + k) 11) := by
  simp only [roundG, h]

theorem roundG_subThenRot {p : Params} (h : p.gOrder = .subThenRot) (a k : Word) :
    roundG p a k = rotl32 (subst p.sbox (a + k)) 11 := by
  simp only [roundG, h]

/-- GF completes with RES = G(A, K) (R85). -/
theorem exec_gf_res (s : State) :
    ∃ t, exec .gf s = .next t ∧ t.res = roundG s.par s.host.ops.a s.host.ops.k :=
  ⟨_, rfl, rfl⟩

/-- Settles O20: the operand's rotation by 21 and G's by 11 make a whole turn. -/
theorem romIsObservableThroughGf : Obligations.RomIsObservableThroughGf := by
  intro s x
  obtain ⟨t, hexec, hres⟩ := exec_gf_res s
  constructor
  · intro hord ha hk
    have hsubst : t.res = subst s.par.sbox x := by
      rw [hres, ha, hk, roundG_rotThenSub hord, add_zero, rotl32_rotl32_cancel x 21 11 (by decide) (by decide) rfl]
    exact ⟨t, hexec, hsubst, fun i => by rw [hsubst, nibble_subst]⟩
  · intro hord ha hk
    exact ⟨t, hexec, by rw [hres, ha, hk, roundG_subThenRot hord, add_zero]⟩

end Sys2Proof.Machine
end

section
/-!
PROOFS. The statements about the key schedule (41_key_schedule): the number a key word stands for, the entries of the schedule, and
KEYX.
-/

namespace Sys2Proof.Machine

/-! ### The number a key word stands for -/

/-- A byte put after a word is the lowest digit in base 256. -/
theorem toNat_append_byte {n : Nat} (hi : BitVec n) (b : Byte) : (hi ++ b).toNat = hi.toNat * 256 + b.toNat := by
  rw [BitVec.toNat_append, ← Nat.shiftLeft_add_eq_or_of_lt b.isLt, Nat.shiftLeft_eq]

theorem toNat_be32 (b0 b1 b2 b3 : Byte) :
    (be32 b0 b1 b2 b3).toNat = ((b0.toNat * 256 + b1.toNat) * 256 + b2.toNat) * 256 + b3.toNat := by
  simp only [be32, toNat_append_byte]

theorem toNat_keyWord (key : List Byte) (j : Nat) : (keyWord key j).toNat = keyNumber key j := toNat_be32 _ _ _ _

/-! ### The entries of the schedule -/

/-- The first 24 entries are the key words forwards, three times over (R77). -/
theorem getElem_keySchedule_forward (key : List Byte) {i j : Nat} (hi : i < 24) (hij : i % 8 = j) :
    (keySchedule key)[i] = keyWord key j := by
  simp [keySchedule, hi, hij]

/-- The last 8 entries are the key words backwards (R77). -/
theorem getElem_keySchedule_backward (key : List Byte) {j : Nat} (hj : j < 8) :
    (keySchedule key)[31 - j] = keyWord key j := by
  have hlast : ¬ 31 - j < 24 := by omega
  have hword : 31 - (31 - j) = j := by omega
  simp [keySchedule, hlast, hword]

/-- The key words K0..K7 (R77). -/
def keyWords (key : List Byte) : List Word := (List.range 8).map (keyWord key)

theorem toList_keySchedule (key : List Byte) :
    (keySchedule key).toList = keyWords key ++ keyWords key ++ keyWords key ++ (keyWords key).reverse := by
  rw [keySchedule, Vector.toList_ofFn]
  rfl

/-- Settles O23: reversing the schedule swaps the order of its four runs and turns each of them around. -/
theorem decryptReadsTheScheduleBackwards : Obligations.DecryptReadsTheScheduleBackwards := by
  intro key _
  simp only [toList_keySchedule, keyWords, List.reverse_append, List.reverse_reverse, List.map_reverse, List.append_assoc]

/-! ### KEYX -/

/-- Settles O21: the length check decides which of KEYX's two answers is given. -/
theorem keyxLoadsOrRejects : Obligations.KeyxLoadsOrRejects := by
  intro s
  constructor
  · intro hk
    rw [exec, execKeyx_of_keyLength hk, State.respond, statusOk_eq, State.answerHost]
  · intro hne
    rw [exec, execKeyx_of_badKey hne, State.raise, status_invalidKeyLength, ioInfo_invalidKeyLength, State.answerHost]

/-- Settles O22: KEYX loads the key's schedule, and each of the four places holds the same key word. -/
theorem scheduleAfterKeyx : Obligations.ScheduleAfterKeyx := by
  intro s hk
  refine ⟨_, execKeyx_of_keyLength hk, fun j hj => ?_⟩
  rw [← toNat_keyWord]
  have forward : ∀ {i : Nat} (hi : i < 24), i % 8 = j → (keySchedule s.host.ops.key)[i].toNat = (keyWord s.host.ops.key j).toNat :=
    fun hi hij => congrArg BitVec.toNat (getElem_keySchedule_forward _ hi hij)
  exact ⟨forward (by omega) (by omega), forward (by omega) (by omega), forward (by omega) (by omega),
    congrArg BitVec.toNat (getElem_keySchedule_backward _ hj)⟩

end Sys2Proof.Machine
end

section
/-!
PROOFS. The statements about the round function G (42_round_function): it is a bijection in its data operand, it sees only the sum of
its operands, and GF writes its value.
-/

namespace Sys2Proof.Machine

/-! ### G in its data operand -/

/-- Rotating by the rest of the turn undoes a rotation, before it or after it (R14). -/
theorem rotl32_bijective {n : Nat} (hpos : 0 < n) (h : n < 32) : Function.Bijective (fun v => rotl32 v n) :=
  Function.bijective_iff_has_inverse.mpr ⟨fun v => rotl32 v (32 - n),
    fun v => rotl32_rotl32_cancel v n (32 - n) h (by omega) (by omega),
    fun v => rotl32_rotl32_cancel v (32 - n) n (by omega) h (by omega)⟩

/-- Settles O17: the sum with k, the rotation and the substitution are bijections, and G is the three in one order or the other. -/
theorem roundFunctionIsBijective : Obligations.RoundFunctionIsBijective := by
  intro p k hwf
  have hsum : Function.Bijective (fun a : Word => a + k) := AddGroup.addRight_bijective k
  have hrot : Function.Bijective (fun v => rotl32 v 11) := rotl32_bijective (by decide) (by decide)
  have hsubst : Function.Bijective (subst p.sbox) := substIsBijective p.sbox hwf
  cases hord : p.gOrder with
  | rotThenSub =>
    simp only [roundG_rotThenSub hord]
    exact hsubst.comp (hrot.comp hsum)
  | subThenRot =>
    simp only [roundG_subThenRot hord]
    exact hrot.comp (hsubst.comp hsum)

/-! ### G and the sum of its operands -/

/-- G is a function of the word `a + k` (R87). -/
theorem roundG_eq_of_add_eq (p : Params) {a k a' k' : Word} (h : a + k = a' + k') : roundG p a k = roundG p a' k' := by
  simp only [roundG, h]

/-- Settles O18: the sum modulo 2^32 is the number of the word `a + k`. -/
theorem roundFunctionDependsOnTheSum : Obligations.RoundFunctionDependsOnTheSum := by
  intro p a k a' k' hmod
  have hsum : a + k = a' + k' := BitVec.eq_of_toNat_eq (by rw [BitVec.toNat_add, BitVec.toNat_add, hmod])
  exact roundG_eq_of_add_eq p hsum

/-! ### GF -/

/-- The meaning of GF (R85): it holds G(A, K) in RES and responds with it, whatever the state. -/
theorem exec_gf (s : State) :
    exec .gf s =
      .next ({ s with res := roundG s.par s.host.ops.a s.host.ops.k, resHeld := true }.respond
        (.res (roundG s.par s.host.ops.a s.host.ops.k))) := rfl

/-- Settles O19: only GF's own word decodes to it, and the value it writes is G(A, K) under either order. -/
theorem gfWritesTheRoundFunction : Obligations.GfWritesTheRoundFunction := by
  refine ⟨fun w => decode_eq_some_iff (i := .gf), fun s => ?_⟩
  refine ⟨roundG s.par s.host.ops.a s.host.ops.k, fun hord => roundG_rotThenSub hord _ _, fun hord => roundG_subThenRot hord _ _, ?_⟩
  rw [exec_gf, State.respond, statusOk_eq, State.answerHost]

end Sys2Proof.Machine
end

section
/-!
PROOFS. The statements about the block engine (43_block_cipher): the Feistel rounds undone in reverse order, the micro-steps of a
transform, the commands ENCB and DECB, and every command taken micro-step by micro-step.
-/

namespace Sys2Proof.Machine

/-! ### ENCB and DECB -/

/-- Settles O24: the transform of the mode is what BLKOUT gets, with the working registers the engine leaves. -/
theorem blockCommandsTransform : Obligations.BlockCommandsTransform := by
  intro m s hb hv
  refine ⟨engineAfter s.par m s.rk s.blkOperand, cipherCore s.par m s.rk s.blkOperand, rfl, ?_⟩
  rw [exec_blockInstr, blockCommand_of_keys hb hv, State.respond, statusOk_eq, State.answerHost]

/-- Settles O25: the length check comes first and does not look at RK_VALID; each error is one `raise`. -/
theorem blockCommandErrors : Obligations.BlockCommandErrors := by
  intro m s
  constructor
  · intro hne
    rw [exec_blockInstr, blockCommand_of_badBlk hne, State.raise, status_invalidBlockLength, ioInfo_invalidBlockLength,
      State.answerHost]
  · intro hb hv
    rw [exec_blockInstr, blockCommand_of_noKeys hb hv, State.raise, status_noRoundKeys, ioInfo_noRoundKeys, State.answerHost]

/-! ### The round keys of a mode, in the order they are used -/

/-- The schedule forwards for Encrypt and backwards for Decrypt (R91, R92). -/
def roundKeys (m : Mode) (rk : Schedule) : List Word :=
  match m with
  | .encrypt => rk.toList
  | .decrypt => rk.toList.reverse

theorem cipherCore_eq (p : Params) (m : Mode) (rk : Schedule) (b : Block) :
    cipherCore p m rk b = blockTransform (roundG p) (roundKeys m rk) b := by
  cases m <;> rfl

@[simp] theorem length_roundKeys (m : Mode) (rk : Schedule) : (roundKeys m rk).length = 32 := by
  cases m <;> simp [roundKeys]

/-- The other mode uses the same keys in reverse order. -/
theorem roundKeys_of_ne {m m' : Mode} (h : m' ≠ m) (rk : Schedule) : roundKeys m' rk = (roundKeys m rk).reverse := by
  cases m with
  | encrypt =>
    cases m' with
    | encrypt => exact absurd rfl h
    | decrypt => rfl
  | decrypt =>
    cases m' with
    | encrypt => exact (List.reverse_reverse _).symm
    | decrypt => exact absurd rfl h

/-! ### Rounds and their inverse -/

theorem feistelRounds_append (g : Word → Word → Word) (ks ks' : List Word) (lr : Word × Word) :
    feistelRounds g (ks ++ ks') lr = feistelRounds g ks' (feistelRounds g ks lr) := List.foldl_append

/-- A round undoes itself on the swapped pair: the same G value is added twice (R96). -/
theorem feistelRound_swap (g : Word → Word → Word) (lr : Word × Word) (k : Word) :
    feistelRound g (feistelRound g lr k).swap k = lr.swap := by
  have hxor : lr.1 ^^^ g lr.2 k ^^^ g lr.2 k = lr.1 := by rw [BitVec.xor_assoc, BitVec.xor_self, BitVec.xor_zero]
  exact Prod.ext rfl hxor

/-- The rounds in reverse order undo the rounds, on the swapped pair. -/
theorem feistelRounds_reverse_swap (g : Word → Word → Word) (ks : List Word) (lr : Word × Word) :
    feistelRounds g ks.reverse (feistelRounds g ks lr).swap = lr.swap := by
  induction ks generalizing lr with
  | nil => rfl
  | cons k ks ih =>
    have inner : feistelRounds g ks.reverse (feistelRounds g (k :: ks) lr).swap = (feistelRound g lr k).swap := ih _
    rw [List.reverse_cons, feistelRounds_append, inner]
    exact feistelRound_swap g lr k

/-- The output's halves are the last pair, swapped (R91). -/
theorem halves_blockTransform (g : Word → Word → Word) (ks : List Word) (b : Block) :
    (leftHalf (blockTransform g ks b), rightHalf (blockTransform g ks b)) =
      (feistelRounds g ks (leftHalf b, rightHalf b)).swap := by
  simp [blockTransform, Prod.swap]

/-- A transform under the reversed keys undoes the transform, whatever stands in the place of G (R96). -/
theorem blockTransform_reverse (g : Word → Word → Word) (ks : List Word) (b : Block) :
    blockTransform g ks.reverse (blockTransform g ks b) = b := by
  rw [blockTransform, halves_blockTransform, feistelRounds_reverse_swap]
  exact blockOfHalves_halves b

/-- One mode's transform undoes the other's. -/
theorem cipherCore_cipherCore {m m' : Mode} (h : m' ≠ m) (p : Params) (rk : Schedule) (b : Block) :
    cipherCore p m' rk (cipherCore p m rk b) = b := by
  rw [cipherCore_eq, cipherCore_eq, roundKeys_of_ne h, blockTransform_reverse]

/-- Settles O27: reversing the round keys undoes a transform, and a second reversal gives them back. -/
theorem decryptUndoesEncrypt : Obligations.DecryptUndoesEncrypt := by
  refine ⟨fun p rk b => ⟨?_, ?_⟩, fun g rk b => ⟨?_, ?_⟩, fun p key b _ => ?_⟩
  · exact cipherCore_cipherCore (m := .encrypt) (m' := .decrypt) nofun p rk b
  · exact cipherCore_cipherCore (m := .decrypt) (m' := .encrypt) nofun p rk b
  · exact blockTransform_reverse g rk.toList b
  · simpa only [List.reverse_reverse] using blockTransform_reverse g rk.toList.reverse b
  · exact cipherCore_cipherCore (m := .encrypt) (m' := .decrypt) nofun p (keySchedule key) b

/-- What a block command that completes leaves for the next one: the transform in BLKOUT, and the same parameters and schedule. -/
theorem blockCommand_completes {m : Mode} {s : State} {b : Block} (hv : s.rkValid = true) (hblk : s.host.ops.blk = b.toList) :
    (blockCommand m s).blkout = cipherCore s.par m s.rk b ∧ (blockCommand m s).status = 0 ∧
      (blockCommand m s).par = s.par ∧ (blockCommand m s).rk = s.rk ∧ (blockCommand m s).rkValid = true := by
  have hlen : s.host.ops.blk.length = 8 := by rw [hblk, Vector.length_toList]
  rw [blockCommand_of_keys hlen hv]
  refine ⟨?_, statusOk_eq, rfl, rfl, hv⟩
  simp [hblk]

/-- Settles O28: the second command finds the first one's BLKOUT as its operand, and the same parameters and schedule. -/
theorem blockCommandsUndoEachOther : Obligations.BlockCommandsUndoEachOther := by
  intro m s b hv hblk
  refine ⟨_, exec_blockInstr m s, fun m' c hm hc => ⟨_, exec_blockInstr m' _, ?_⟩⟩
  obtain ⟨hout, -, hpar, hrk, hv'⟩ := blockCommand_completes (m := m) hv hblk
  obtain ⟨hout', hstatus, -⟩ := blockCommand_completes (m := m') (s := (blockCommand m s).present c) hv' hc
  refine ⟨?_, hstatus⟩
  rw [hout', State.present_par, State.present_rk, hpar, hrk, hout, cipherCore_cipherCore hm]

/-! ### Schedules that read the same both ways -/

theorem toList_reverse_of_palindrome {rk : Schedule} (h : ∀ (i : Nat) (hi : i < 32), rk[i] = rk[31 - i]'(by omega)) :
    rk.toList.reverse = rk.toList := by
  apply List.ext_getElem
  · simp
  · intro i _ hi
    rw [Vector.length_toList] at hi
    simp [List.getElem_reverse, h i hi]

/-- Settles O29: entry i is key word i mod 8 for such a key, and the reversal maps i mod 8 to 7 - i mod 8. -/
theorem palindromicScheduleMakesBothTheSame : Obligations.PalindromicScheduleMakesBothTheSame := by
  constructor
  · intro p rk b h
    rw [decryptCore, encryptCore, toList_reverse_of_palindrome h]
  · intro key hkey
    have hword : ∀ j, j < 8 → keyWord key (7 - j) = keyWord key j := by
      intro j hj
      by_cases hlow : j < 4
      · exact hkey j hlow
      · rw [← hkey (7 - j) (by omega), show 7 - (7 - j) = j by omega]
    have entry : ∀ (i : Nat) (h : i < 32), (keySchedule key)[i] = keyWord key (i % 8) := by
      intro i h
      by_cases hi : i < 24
      · exact getElem_keySchedule_forward key hi rfl
      · have hback := getElem_keySchedule_backward key (j := 31 - i) (by omega)
        simp only [show 31 - (31 - i) = i by omega] at hback
        rw [hback, ← hword (i % 8) (by omega), show 7 - i % 8 = 31 - i by omega]
    intro i h
    rw [entry i h, entry (31 - i) (by omega), ← hword (i % 8) (by omega), show (31 - i) % 8 = 7 - i % 8 by omega]

/-! ### The last round -/

/-- A last swapping round followed by the swapped output is a last round that does not swap (R98). -/
theorem blockTransform_append_last {g : Word → Word → Word} {ks : List Word} {b : Block} {l r : Word}
    (h : feistelRounds g ks (leftHalf b, rightHalf b) = (l, r)) (k : Word) :
    blockTransform g (ks ++ [k]) b = blockOfHalves (l ^^^ g r k) r := by
  rw [blockTransform, feistelRounds_append, h]
  rfl

/-- A list of n + 1 entries is its first n and its last. -/
theorem eq_take_append_last {α : Type} {n : Nat} {xs : List α} (h : xs.length = n + 1) : xs = xs.take n ++ [xs[n]] := by
  rw [List.take_append_getElem, List.take_of_length_le (by omega)]

/-- Settles O30: the schedule and its reverse are their first 31 keys and a last one, rk[31] and rk[0]. -/
theorem lastRoundWithoutSwap : Obligations.LastRoundWithoutSwap := by
  intro p rk b
  constructor
  · intro l r h
    have hkeys : rk.toList = rk.toList.take 31 ++ [rk[31]] := eq_take_append_last (by simp)
    rw [encryptCore, hkeys, blockTransform_append_last h]
  · intro l r h
    have hkeys : rk.toList.reverse = rk.toList.reverse.take 31 ++ [rk[0]] := by
      simpa using eq_take_append_last (n := 31) (xs := rk.toList.reverse) (by simp)
    rw [decryptCore, hkeys, blockTransform_append_last h]

/-! ### The engine's round micro-steps -/

@[simp] theorem engineRound_dir (p : Params) (rk : Schedule) (e : BlockEngine) : (engineRound p rk e).dir = e.dir := rfl

theorem engineRounds_succ (p : Params) (rk : Schedule) (n : Nat) (e : BlockEngine) :
    engineRounds p rk (n + 1) e = engineRounds p rk n (engineRound p rk e) := rfl

theorem engineRounds_dir (p : Params) (rk : Schedule) (n : Nat) (e : BlockEngine) :
    (engineRounds p rk n e).dir = e.dir := by
  induction n generalizing e with
  | zero => rfl
  | succ n ih => rw [engineRounds_succ, ih, engineRound_dir]

theorem engineRound_rnd (p : Params) (rk : Schedule) {e : BlockEngine} (h : e.rnd.toNat < 32) :
    (engineRound p rk e).rnd.toNat = e.rnd.toNat + 1 := engineRounds_rnd p rk 1 e h

/-- RND counts through the mode's round keys (R93, R41). -/
theorem engineKey_eq (rk : Schedule) {e : BlockEngine} (h : e.rnd.toNat < 32) :
    engineKey rk e = (roundKeys e.dir rk)[e.rnd.toNat]'(by simpa using h) := by
  cases hd : e.dir with
  | encrypt => simp [engineKey, roundKeys, hd, h]
  | decrypt =>
    have hback : 31 - e.rnd.toNat < 32 := by omega
    simp [engineKey, roundKeys, hd, List.getElem_reverse, hback]

/-- n round micro-steps are the rounds under the next n keys of the mode (R93). -/
theorem engineRounds_pair (p : Params) (rk : Schedule) (n : Nat) (e : BlockEngine) (h : e.rnd.toNat + n ≤ 32) :
    ((engineRounds p rk n e).l, (engineRounds p rk n e).r) =
      feistelRounds (roundG p) (((roundKeys e.dir rk).drop e.rnd.toNat).take n) (e.l, e.r) := by
  induction n generalizing e with
  | zero => rfl
  | succ n ih =>
    have hlt : e.rnd.toNat < 32 := by omega
    have hrnd := engineRound_rnd p rk hlt
    rw [engineRounds_succ, ih _ (by omega), hrnd, engineRound_dir,
      List.drop_eq_getElem_cons (by simpa using hlt : e.rnd.toNat < (roundKeys e.dir rk).length), List.take_succ_cons,
      ← engineKey_eq rk hlt]
    rfl

/-- Load, 32 rounds and emit compute the mode's transform (R93). -/
theorem engineEmit_engineAfter (p : Params) (m : Mode) (rk : Schedule) (b : Block) :
    engineEmit (engineAfter p m rk b) = cipherCore p m rk b := by
  have hpair := engineRounds_pair p rk 32 (engineLoad b m) (Nat.le_refl 32)
  have hkeys : ((roundKeys m rk).drop 0).take 32 = roundKeys m rk := List.take_of_length_le (by simp)
  obtain ⟨hl, hr⟩ := Prod.ext_iff.mp (hpair.trans (congrArg (feistelRounds (roundG p) · _) hkeys))
  rw [cipherCore_eq, engineEmit]
  exact congrArg₂ blockOfHalves hr hl

/-- Settles O26: the round keys the engine picks by RND are the transform's, in its order. -/
theorem microStepsComputeTheTransform : Obligations.MicroStepsComputeTheTransform := by
  intro p rk b
  refine ⟨engineEmit_engineAfter p .encrypt rk b, engineEmit_engineAfter p .decrypt rk b, fun n m hn => ⟨?_, ?_⟩⟩
  · exact (engineRounds_rnd p rk n (engineLoad b m) (by simpa [engineLoad] using hn)).trans (by simp [engineLoad])
  · exact engineRounds_dir p rk n (engineLoad b m)

/-! ### Runs of micro-steps -/

/-- A run whose first micro-step leads to a state that stays, idle or waiting for the host, ends there. -/
theorem microRun_settles {s t : State} {n : Nat} (h : microStep s = .next t) (ht : microStep t = .next t) (hn : 1 ≤ n) :
    microRun n s = .next t := by
  obtain ⟨n, rfl⟩ : ∃ k, n = k + 1 := ⟨n - 1, by omega⟩
  rw [microRun_next h, microRun_stays ht]

/-- The running command is in its rounds: while RND is below 32 a micro-step is a round, and changes the block engine alone (R93). -/
def TakesRounds (s : State) : Prop :=
  ∀ e : BlockEngine, e.rnd < 32 → microStep { s with be := e } = .next { s with be := engineRound s.par s.rk e }

/-- k micro-steps in the rounds are k rounds, up to RND = 32. -/
theorem microRun_rounds {s : State} (round : TakesRounds s) (k n : Nat) (e : BlockEngine) (h : e.rnd.toNat + k ≤ 32) :
    microRun (n + k) { s with be := e } = microRun n { s with be := engineRounds s.par s.rk k e } := by
  induction k generalizing e with
  | zero => rfl
  | succ k ih =>
    have hlt : e.rnd.toNat < 32 := by omega
    have hnext : (engineRound s.par s.rk e).rnd.toNat = e.rnd.toNat + 1 := engineRound_rnd s.par s.rk hlt
    rw [← Nat.add_assoc, microRun_next (round e (by bv_omega)), ih _ (by omega), engineRounds_succ]

/-- 32 micro-steps after the load leave the engine as the whole transform does. -/
theorem microRun_transform {s : State} (round : TakesRounds s) (n : Nat) (m : Mode) (b : Block) :
    microRun (n + 32) { s with be := engineLoad b m } = microRun n { s with be := engineAfter s.par m s.rk b } :=
  microRun_rounds round 32 n (engineLoad b m) (Nat.le_refl 32)

/-- After a whole transform no round is left (R93). -/
theorem not_engineAfter_rnd_lt (p : Params) (m : Mode) (rk : Schedule) (b : Block) : ¬ (engineAfter p m rk b).rnd < 32 := by
  have h : (engineAfter p m rk b).rnd.toNat = 32 := engineRounds_rnd p rk 32 (engineLoad b m) (Nat.le_refl 32)
  bv_omega

/-! ### The micro-steps of a block command -/

section BlockMicro

variable {i : Instr} {m : Mode} {s : State}

theorem blockMicro_round (h : s.be.rnd < 32) :
    blockMicro i m .run s = { s with be := engineRound s.par s.rk s.be } := if_pos h

theorem blockMicro_emit (h : ¬ s.be.rnd < 32) :
    blockMicro i m .run s = { s with blkout := engineEmit s.be, blkHeld := true }.respond (.blkout (engineEmit s.be)) :=
  if_neg h

theorem blockMicro_check_of_badBlk (hne : s.host.ops.blk.length ≠ 8) :
    blockMicro i m .check s = s.raise (.invalidBlockLength s.host.ops.blk.length) := by
  simp [blockMicro, State.blkLengthOk, hne]

theorem blockMicro_check_of_noKeys (hb : s.host.ops.blk.length = 8) (hv : s.rkValid = false) :
    blockMicro i m .check s = s.raise .noRoundKeys := by
  simp [blockMicro, State.blkLengthOk, hb, hv]

theorem blockMicro_check_of_keys (hb : s.host.ops.blk.length = 8) (hv : s.rkValid = true) :
    blockMicro i m .check s = { s with eng := .busy i .load } := by
  simp [blockMicro, State.blkLengthOk, hb, hv]

end BlockMicro

theorem takesRounds_block {m : Mode} {s : State} (he : s.eng = .busy (blockInstr m) .run) : TakesRounds s := by
  intro e hlt
  rw [microStep_block (s := { s with be := e }) he, blockMicro_round hlt]

/-- From the load on, a block command takes 32 rounds and emits the transform (R93). -/
theorem microRun_block_run {m : Mode} {s : State} (he : s.eng = .busy (blockInstr m) .run) (b : Block) {n : Nat} (hn : 33 ≤ n) :
    microRun n { s with be := engineLoad b m } =
      .next ({ s with be := engineAfter s.par m s.rk b, blkout := cipherCore s.par m s.rk b, blkHeld := true }.respond
        (.blkout (cipherCore s.par m s.rk b))) := by
  have emit := microStep_block (s := { s with be := engineAfter s.par m s.rk b }) he
  have noRound : ¬ ({ s with be := engineAfter s.par m s.rk b } : State).be.rnd < 32 := not_engineAfter_rnd_lt s.par m s.rk b
  rw [blockMicro_emit noRound, engineEmit_engineAfter] at emit
  obtain ⟨n, rfl⟩ : ∃ k, n = k + 32 := ⟨n - 32, by omega⟩
  rw [microRun_transform (takesRounds_block he), microRun_ends emit rfl (by omega)]

/-- The checks, load, 32 rounds and emit of a block command are the whole command (R93, R141). -/
theorem microRun_block {m : Mode} {s : State} (he : s.eng = .busy (blockInstr m) .check) {n : Nat} (hn : 35 ≤ n) :
    microRun n s = .next (blockCommand m s) := by
  have checks := microStep_block he
  rcases blockCommand_cases m s with ⟨hne, e⟩ | ⟨hb, hv, e⟩ | ⟨hb, hv, e⟩ <;> rw [e]
  · rw [blockMicro_check_of_badBlk hne] at checks
    exact microRun_ends checks rfl (by omega)
  · rw [blockMicro_check_of_noKeys hb hv] at checks
    exact microRun_ends checks rfl (by omega)
  · rw [blockMicro_check_of_keys hb hv] at checks
    have loads : microStep { s with eng := .busy (blockInstr m) .load } = _ := microStep_block rfl
    obtain ⟨n, rfl⟩ : ∃ k, n = k + 1 + 1 := ⟨n - 2, by omega⟩
    rw [microRun_next checks, microRun_next loads]
    exact microRun_block_run (s := { s with eng := .busy (blockInstr m) .run }) rfl s.blkOperand (by omega)

/-! ### The micro-steps of a stream command -/

section StreamMicro

variable {m : Mode} {s : State}

/-- A stream command in one of its phases, with the block engine between transforms (R104). -/
structure AtPhase (m : Mode) (ph : Phase) (s : State) : Prop where
  eng : s.eng = .busy (streamInstr m) .load
  phase : s.fp.phase = ph

theorem microStep_keyload {pos : BlockPos} (he : s.eng = .busy (streamInstr m) pos) (hp : s.fp.phase = .keyload) :
    microStep s = s.keyLoadStep (streamInstr m) m := by
  rw [microStep_stream he, streamMicro, hp]

theorem microStep_read (h : AtPhase m .read s) : microStep s = .next s.readStep := by
  rw [microStep_stream h.eng, streamMicro, h.phase]

theorem microStep_write (h : AtPhase m .write s) : microStep s = .next s.writeStep := by
  rw [microStep_stream h.eng, streamMicro, h.phase]

theorem microStep_done (h : AtPhase m .done s) : microStep s = .next s.doneStep := by
  rw [microStep_stream h.eng, streamMicro, h.phase]

theorem microStep_xform {pos : BlockPos} (he : s.eng = .busy (streamInstr m) pos) (hp : s.fp.phase = .xform) :
    microStep s = .next (xformMicro (streamInstr m) m pos s) := by
  rw [microStep_stream he, streamMicro, hp]

theorem xformMicro_load {i : Instr} :
    xformMicro i m .load s =
      { s with
        be := engineLoad (blockOfBytes s.fp.inBytes) m
        fp := { s.fp with chunk := blockOfBytes s.fp.inBytes }
        eng := .busy i .run } := rfl

theorem xformMicro_round {i : Instr} (h : s.be.rnd < 32) :
    xformMicro i m .run s = { s with be := engineRound s.par s.rk s.be } := if_pos h

theorem xformMicro_emit {i : Instr} (h : ¬ s.be.rnd < 32) :
    xformMicro i m .run s =
      { s with fp := { s.fp with xblk := engineEmit s.be, phase := .write }, eng := .busy i .load } := if_neg h

theorem takesRounds_xform (he : s.eng = .busy (streamInstr m) .run) (hp : s.fp.phase = .xform) : TakesRounds s := by
  intro e hlt
  rw [microStep_xform (s := { s with be := e }) he hp, xformMicro_round hlt]

/-- From the load on, XFORM takes 32 rounds and emits the transform into XBLK (R93, R104). -/
theorem microRun_xform_run (he : s.eng = .busy (streamInstr m) .run) (hp : s.fp.phase = .xform) (b : Block) (n : Nat) :
    microRun (n + 33) { s with be := engineLoad b m } =
      microRun n { s with
        be := engineAfter s.par m s.rk b
        fp := { s.fp with xblk := cipherCore s.par m s.rk b, phase := .write }
        eng := .busy (streamInstr m) .load } := by
  have emit := microStep_xform (s := { s with be := engineAfter s.par m s.rk b }) he hp
  have noRound : ¬ ({ s with be := engineAfter s.par m s.rk b } : State).be.rnd < 32 := not_engineAfter_rnd_lt s.par m s.rk b
  rw [xformMicro_emit noRound, engineEmit_engineAfter] at emit
  rw [show n + 33 = n + 1 + 32 from rfl, microRun_transform (takesRounds_xform he hp), microRun_next emit]

/-- Load, 32 rounds and emit are the XFORM phase (R93, R104). -/
theorem microRun_xform (h : AtPhase m .xform s) (n : Nat) : microRun (n + 34) s = microRun n (s.xformStep m) := by
  have load := microStep_xform h.eng h.phase
  rw [xformMicro_load] at load
  have run := microRun_xform_run
    (s := { s with fp := { s.fp with chunk := blockOfBytes s.fp.inBytes }, eng := .busy (streamInstr m) .run })
    rfl h.phase (blockOfBytes s.fp.inBytes) n
  rw [microRun_next load, State.xformStep, h.eng]
  exact run

/-- A stream that waits on its source, or whose read failed, stays as the read left it (R107, R141). -/
theorem readStep_settles (h : AtPhase m .read s) (hx : s.readStep.fp.phase ≠ .xform) (hd : s.readStep.fp.phase ≠ .done) :
    microStep s.readStep = .next s.readStep := by
  rcases readStep_cases s with ⟨rest, -, e⟩ | ⟨info, rest, -, e⟩ | ⟨rest, -, e⟩
  · rcases hb : s.host.src.bytes with _ | ⟨b, bs⟩ <;> rw [e, hb] at hx hd
    · exact absurd rfl hd
    · exact absurd rfl hx
  · rw [e]; exact microStep_idle rfl
  · have waits := microStep_read h
    rwa [e] at waits ⊢

/-- A stream that waits on its sink, or whose write failed, stays as the write left it (R108, R141). -/
theorem writeStep_settles (h : AtPhase m .write s) (hr : s.writeStep.fp.phase ≠ .read) :
    microStep s.writeStep = .next s.writeStep := by
  rcases writeStep_cases s with ⟨rest, -, e⟩ | ⟨info, rest, -, e⟩ | ⟨rest, -, e⟩
  · rw [e] at hr; exact absurd rfl hr
  · rw [e]; exact microStep_idle rfl
  · have waits := microStep_write h
    rwa [e] at waits ⊢

/-- An accepted write leads back to the loop's head. -/
theorem writeStep_atRead (h : AtPhase m .write s) (hr : s.writeStep.fp.phase = .read) : AtPhase m .read s.writeStep := by
  obtain ⟨rest, -, e⟩ := writeStep_read h.phase hr
  exact ⟨by rw [e]; exact h.eng, hr⟩

/-- How many micro-steps the loop of a stream takes at most from its head, with n bytes still in the source: 36 for each chunk, the
last read, and DONE (R141). -/
def loopSteps (n : Nat) : Nat := 36 * ((n + 7) / 8) + 2

theorem two_le_loopSteps (n : Nat) : 2 ≤ loopSteps n := Nat.le_add_left 2 _

/-- A chunk takes 36 of them. -/
theorem loopSteps_of_pos {n : Nat} (h : 0 < n) : loopSteps n = loopSteps (n - 8) + 36 := by
  unfold loopSteps
  omega

/-- A read that leads to XFORM, and the transform after it, take 35 micro-steps to WRITE, which leave one for the write and enough for
the rest of the source. -/
theorem microRun_read_xform (h : AtPhase m .read s) (hx : s.readStep.fp.phase = .xform) {k : Nat}
    (hk : loopSteps s.host.src.bytes.length ≤ k) :
    ∃ j, loopSteps (s.readStep.xformStep m).host.src.bytes.length ≤ j ∧
      microRun k s = microRun (j + 1) (s.readStep.xformStep m) ∧ AtPhase m .write (s.readStep.xformStep m) := by
  obtain ⟨rest, -, hne, e⟩ := readStep_xform h.phase hx
  have hxform : AtPhase m .xform s.readStep := ⟨by rw [e]; exact h.eng, hx⟩
  have hbytes : (s.readStep.xformStep m).host.src.bytes.length = s.host.src.bytes.length - 8 := by
    rw [e]; exact List.length_drop
  rw [loopSteps_of_pos (List.length_pos_iff.mpr hne), ← hbytes] at hk
  obtain ⟨j, rfl⟩ : ∃ j, k = j + 1 + 34 + 1 := ⟨k - 36, by omega⟩
  refine ⟨j, by omega, ?_, hxform.eng, rfl⟩
  rw [microRun_next (microStep_read h), microRun_xform hxform]

/-- From the loop's head, the micro-steps are the loop. -/
theorem microRun_streamLoop (h : AtPhase m .read s) {n : Nat} (hn : loopSteps s.host.src.bytes.length ≤ n) :
    microRun n s = .next (State.streamLoop m (streamReads s.host.src.bytes.length) s) := by
  refine streamLoop_induction_enough (m := m)
    (P := fun u => AtPhase m .read u ∧ ∃ k, loopSteps u.host.src.bytes.length ≤ k ∧ microRun n s = microRun k u)
    (Q := fun t => microRun n s = .next t)
    ?atRead ?readStops ?exhausted ?writeStops ?again _ s ⟨h, n, hn, rfl⟩ (Nat.le_refl _)
  case atRead => exact fun u ⟨hu, _⟩ => hu.phase
  case readStops =>
    rintro u ⟨hu, k, hk, run⟩ hx hd
    have htwo := two_le_loopSteps u.host.src.bytes.length
    exact run.trans (microRun_settles (microStep_read hu) (readStep_settles hu hx hd) (by omega))
  case exhausted =>
    rintro u ⟨hu, k, hk, run⟩ hd
    obtain ⟨rest, -, -, e⟩ := readStep_done hu.phase hd
    have hdone : AtPhase m .done u.readStep := ⟨by rw [e]; exact hu.eng, hd⟩
    have htwo := two_le_loopSteps u.host.src.bytes.length
    obtain ⟨k, rfl⟩ : ∃ j, k = j + 1 + 1 := ⟨k - 2, by omega⟩
    rw [run, microRun_next (microStep_read hu)]
    exact microRun_ends (microStep_done hdone) rfl (by omega)
  case writeStops =>
    rintro u ⟨hu, k, hk, run⟩ hx hw
    obtain ⟨j, -, turn, hwrite⟩ := microRun_read_xform hu hx hk
    rw [run, turn]
    exact microRun_settles (microStep_write hwrite) (writeStep_settles hwrite hw) (by omega)
  case again =>
    rintro u ⟨hu, k, hk, run⟩ hx hw
    obtain ⟨j, hj, turn, hwrite⟩ := microRun_read_xform hu hx hk
    refine ⟨writeStep_atRead hwrite hw, j, by rwa [writeStep_src], ?_⟩
    rw [run, turn, microRun_next (microStep_write hwrite)]

/-- The key load and the loop, micro-step by micro-step, are the whole stream command, refusal and waiting included (R104, R141). -/
theorem microRun_stream {pos : BlockPos} (he : s.eng = .busy (streamInstr m) pos) (hp : s.fp.phase = .keyload) {n : Nat}
    (hn : 1 + loopSteps s.host.ops.src.bytes.length ≤ n) :
    microRun n s = streamCommand (streamInstr m) m s := by
  have load := microStep_keyload he hp
  rcases keyLoadStep_cases s (streamInstr m) m with ⟨hne, e⟩ | ⟨-, -, e⟩ | ⟨hk, hl, e⟩ <;> rw [e] at load
  · rw [streamCommand_of_badKey hne]
    exact microRun_ends load rfl (by omega)
  · obtain ⟨n, rfl⟩ : ∃ k, n = k + 1 := ⟨n - 1, by omega⟩
    simp only [microRun, load, streamCommand, e]
  · obtain ⟨n, rfl⟩ : ∃ k, n = k + 1 := ⟨n - 1, by omega⟩
    rw [streamCommand_of_fits hk ((streamTooLong_openStream s _ m).mp hl), microRun_next load]
    have hloop : loopSteps s.host.ops.src.bytes.length ≤ n := by omega
    exact microRun_streamLoop (s := s.keyLoaded (streamInstr m) m) ⟨rfl, rfl⟩ hloop

end StreamMicro

/-! ### A command from its acceptance -/

theorem beginCommand_eng (s : State) (i : Instr) : (s.beginCommand i).eng = .busy i .check := by
  rw [beginCommand_eq]

theorem beginCommand_host (s : State) (i : Instr) : (s.beginCommand i).host = s.host := by
  rw [beginCommand_eq]

theorem beginCommand_of_not_stream {i : Instr} (h : isStream i = false) (s : State) :
    s.beginCommand i = { s with eng := .busy i .check } := by
  rw [beginCommand_eq, h]; rfl

theorem beginCommand_phase (s : State) (m : Mode) : (s.beginCommand (streamInstr m)).fp.phase = .keyload := by
  rw [beginCommand_eq, isStream_streamInstr]; rfl

/-- The acceptance changes nothing that a command's meaning depends on. -/
theorem exec_beginCommand (i : Instr) (s : State) : exec i (s.beginCommand i) = exec i s := by
  induction i using instr_families with
  | keyx =>
    rw [beginCommand_of_not_stream rfl, exec, exec]
    rcases execKeyx_cases s with ⟨hk, e⟩ | ⟨hne, e⟩ <;> rw [e]
    · exact execKeyx_of_keyLength (s := { s with eng := .busy .keyx .check }) hk
    · exact execKeyx_of_badKey (s := { s with eng := .busy .keyx .check }) hne
  | gf => rfl
  | block m =>
    rw [beginCommand_of_not_stream (isStream_blockInstr m), exec_blockInstr, exec_blockInstr]
    rcases blockCommand_cases m s with ⟨hne, e⟩ | ⟨hb, hv, e⟩ | ⟨hb, hv, e⟩ <;> rw [e]
    · exact congrArg _ (blockCommand_of_badBlk (s := { s with eng := .busy (blockInstr m) .check }) hne)
    · exact congrArg _ (blockCommand_of_noKeys (s := { s with eng := .busy (blockInstr m) .check }) hb hv)
    · exact congrArg _ (blockCommand_of_keys (s := { s with eng := .busy (blockInstr m) .check }) hb hv)
  | stream m =>
    have load : (s.beginCommand (streamInstr m)).keyLoadStep (streamInstr m) m = s.keyLoadStep (streamInstr m) m := by
      rw [beginCommand_eq]; rfl
    rw [exec_streamInstr, exec_streamInstr, streamCommand, load, streamCommand]

theorem microBound_blockInstr (m : Mode) (n : Nat) : microBound (blockInstr m) n = 35 := by cases m <;> rfl

theorem microBound_streamInstr (m : Mode) (n : Nat) : microBound (streamInstr m) n = 1 + loopSteps n := by
  have bound : microBound (streamInstr m) n = 1 + ((n + 7) / 8 + 1) + (n + 7) / 8 * 35 + 1 := by cases m <;> rfl
  rw [bound, loopSteps]
  omega

/-- KEYX is one micro-step (R141). -/
theorem microRun_keyx {s : State} {pos : BlockPos} (he : s.eng = .busy .keyx pos) {n : Nat} (hn : 1 ≤ n) :
    microRun n s = execKeyx s := by
  have whole : microStep s = execKeyx s := by rw [microStep, he]
  rcases execKeyx_cases s with ⟨-, e⟩ | ⟨-, e⟩ <;> rw [e]
  · exact microRun_ends (whole.trans e) rfl hn
  · exact microRun_ends (whole.trans e) rfl hn

/-- GF is one micro-step (R141). -/
theorem microRun_gf {s : State} {pos : BlockPos} (he : s.eng = .busy .gf pos) {n : Nat} (hn : 1 ≤ n) :
    microRun n s = execGf s := by
  have whole : microStep s = execGf s := by rw [microStep, he]
  exact microRun_ends whole rfl hn

/-- Settles O51: from its acceptance each kind of command runs to what the whole command gives, and the acceptance does not change
that. -/
theorem microStepsRefineTheCommands : Obligations.MicroStepsRefineTheCommands := by
  intro i s n hn
  rw [← exec_beginCommand i s]
  have he := beginCommand_eng s i
  induction i using instr_families with
  | keyx => exact microRun_keyx he hn
  | gf => exact microRun_gf he hn
  | block m =>
    rw [microBound_blockInstr] at hn
    rw [exec_blockInstr]
    exact microRun_block he hn
  | stream m =>
    rw [microBound_streamInstr, ← beginCommand_host s (streamInstr m)] at hn
    rw [exec_streamInstr]
    exact microRun_stream he (beginCommand_phase s m) hn

end Sys2Proof.Machine
end

section
/-!
PROOFS. The statements about the file block processor (44_file_processor): where a stream command stands after each request, the five
ways it can go, and what each way leaves in the sink, the requests and the registers.
-/

namespace Sys2Proof.Machine

/-! ### Chunks, padding and blocks as lists -/

theorem length_padded {c : List Byte} (h : c.length ≤ 8) : (padded c).length = 8 := by
  rw [padded, List.length_append, List.length_replicate]
  omega

/-- A block is filled up with zeros anyway (R103). -/
@[simp] theorem blockOfBytes_padded (c : List Byte) : blockOfBytes (padded c) = blockOfBytes c := by
  apply Vector.ext
  intro i hi
  simp only [blockOfBytes, padded, Vector.getElem_ofFn, List.getD_eq_getElem?_getD, List.getElem?_append]
  split
  next => rfl
  next hout =>
    rw [List.getElem?_eq_none (Nat.not_lt.mp hout), List.getElem?_replicate]
    split <;> rfl

theorem outBlock_eq (p : Params) (m : Mode) (key src : List Byte) (j : Nat) :
    outBlock p m key src j = cipherCore p m (keySchedule key) (blockOfBytes (chunkAt src j)) := by
  rw [outBlock, blockOfBytes_padded]

theorem length_chunkAt (l : List Byte) (j : Nat) : (chunkAt l j).length = min 8 (l.length - 8 * j) := by
  simp [chunkAt]

theorem chunkAt_eq_nil {l : List Byte} {j : Nat} (h : l.length ≤ 8 * j) : chunkAt l j = [] := by
  rw [chunkAt, List.drop_eq_nil_of_le h, List.take_nil]

/-- The chunk of two lists is the same when they agree on its eight places. -/
theorem chunkAt_congr {l l' : List Byte} {j : Nat} (h : ∀ i, 8 * j ≤ i → i < 8 * j + 8 → l[i]? = l'[i]?) :
    chunkAt l j = chunkAt l' j := by
  apply List.ext_getElem?
  intro i
  rw [chunkAt, chunkAt, List.getElem?_take, List.getElem?_take]
  split
  next hi => simpa using h (8 * j + i) (by omega) (by omega)
  next => rfl

/-- The chunks put together again are the list (R47). -/
theorem flatMap_chunkAt (l : List Byte) (k : Nat) : (List.range k).flatMap (chunkAt l) = l.take (8 * k) := by
  induction k with
  | zero => rfl
  | succ k ih => rw [List.range_succ, List.flatMap_append, ih, List.flatMap_singleton, Nat.mul_succ, List.take_add, chunkAt]

/-- Padding each chunk is padding the whole to a multiple of 8 bytes (R103). -/
theorem padded_chunkAt (l : List Byte) {j : Nat} (h : 8 * j < l.length) :
    padded (chunkAt l j) = chunkAt (l ++ List.replicate ((8 - l.length % 8) % 8) 0) j := by
  have hzeros : 8 - (chunkAt l j).length = min (8 - (l.length - 8 * j)) ((8 - l.length % 8) % 8) := by
    rw [length_chunkAt]
    omega
  rw [padded, hzeros, chunkAt, chunkAt, List.drop_append_of_le_length h.le, List.take_append, List.take_replicate,
    List.length_drop]

/-- The padded chunks of a source are the source and its padding (R103, R112). -/
theorem flatMap_padded_chunkAt (l : List Byte) :
    ((List.range (chunkCount l.length)).flatMap fun j => padded (chunkAt l j)) =
      l ++ List.replicate ((8 - l.length % 8) % 8) 0 := by
  have hchunks : ∀ j ∈ List.range (chunkCount l.length),
      padded (chunkAt l j) = chunkAt (l ++ List.replicate ((8 - l.length % 8) % 8) 0) j := by
    intro j hj
    rw [List.mem_range, chunkCount] at hj
    exact padded_chunkAt l (by omega)
  rw [List.flatMap_congr hchunks, flatMap_chunkAt, List.take_of_length_le]
  rw [List.length_append, List.length_replicate, chunkCount]
  omega

theorem streamOutput_succ (p : Params) (m : Mode) (key src : List Byte) (k : Nat) :
    streamOutput p m key src (k + 1) = streamOutput p m key src k ++ (outBlock p m key src k).toList := by
  rw [streamOutput, List.range_succ, List.flatMap_append, List.flatMap_singleton]
  rfl

theorem streamEvents_succ (p : Params) (m : Mode) (key src : List Byte) (k : Nat) :
    streamEvents p m key src (k + 1) =
      streamEvents p m key src k ++ [.read (chunkAt src k), .wrote (outBlock p m key src k)] := by
  rw [streamEvents, List.range_succ, List.flatMap_append, List.flatMap_singleton]
  rfl

@[simp] theorem length_streamOutput (p : Params) (m : Mode) (key src : List Byte) (k : Nat) :
    (streamOutput p m key src k).length = 8 * k := by
  induction k with
  | zero => rfl
  | succ k ih => rw [streamOutput_succ, List.length_append, ih, Vector.length_toList, Nat.mul_succ]

/-- The k-th block of an output is its k-th chunk (R105). -/
theorem chunkAt_streamOutput (p : Params) (m : Mode) (key src : List Byte) {j k : Nat} (h : j < k) :
    chunkAt (streamOutput p m key src k) j = (outBlock p m key src j).toList := by
  induction k with
  | zero => exact absurd h (Nat.not_lt_zero j)
  | succ k ih =>
    rw [streamOutput_succ]
    rcases Nat.lt_succ_iff_lt_or_eq.mp h with hj | rfl
    · have hin : ∀ i, 8 * j ≤ i → i < 8 * j + 8 →
          (streamOutput p m key src k ++ (outBlock p m key src k).toList)[i]? = (streamOutput p m key src k)[i]? :=
        fun i _ hi => List.getElem?_append_left (by rw [length_streamOutput]; omega)
      rw [chunkAt_congr hin, ih hj]
    · rw [chunkAt, List.drop_left' (length_streamOutput ..), List.take_of_length_le (Vector.length_toList ..).le]

/-- Each chunk of a stream has one read in its requests (R102). -/
theorem length_filter_streamEvents (p : Params) (m : Mode) (key src : List Byte) (k : Nat) :
    ((streamEvents p m key src k).filter IoEvent.isRead).length = k := by
  induction k with
  | zero => rfl
  | succ k ih =>
    rw [streamEvents_succ, List.filter_append, List.length_append, ih]
    rfl

/-! ### Which requests the host serves -/

/-- Request k is served: its listed answer is success, or none is listed for it (R106). -/
def ServedAt (answers : List Answer) (k : Nat) : Prop := ∀ a, answers[k]? = some a → a = .ok

theorem servedAt_of_all {answers : List Answer} (h : ∀ a ∈ answers, a = .ok) (k : Nat) : ServedAt answers k :=
  fun a ha => h a (List.mem_of_getElem? ha)

/-- Success in the first n answers listed serves the first n requests. -/
theorem servedAt_of_take {answers : List Answer} {n k : Nat} (h : ∀ a ∈ answers.take n, a = .ok) (hk : k < n) :
    ServedAt answers k :=
  fun a ha => h a (List.mem_of_getElem? (i := k) (by rw [List.getElem?_take_of_lt hk, ha]))

theorem servedAt_of_replicate {j k : Nat} {rest : List Answer} (h : k < j) :
    ServedAt (List.replicate j .ok ++ rest) k := by
  intro a ha
  rw [List.getElem?_append_left (by rwa [List.length_replicate]), List.getElem?_replicate_of_lt h] at ha
  exact (Option.some.inj ha).symm

theorem getElem?_replicate_append_cons (j : Nat) (a : Answer) (rest : List Answer) :
    (List.replicate j .ok ++ a :: rest)[j]? = some a := by
  simp

/-- A served request's answer is used up, and the request stood at the front of the answers left. -/
theorem servedAt_of_served {answers rest : List Answer} {k : Nat} (h : Served (answers.drop k) rest) :
    ServedAt answers k ∧ rest = answers.drop (k + 1) := by
  have htail : answers.drop (k + 1) = (answers.drop k).tail := by rw [List.tail_drop]
  have hhead : answers[k]? = (answers.drop k).head? := by rw [List.head?_drop]
  rw [ServedAt, htail, hhead]
  rcases h with ⟨e, rfl⟩ | e <;> rw [e]
  · exact ⟨nofun, rfl⟩
  · exact ⟨fun a ha => (Option.some.inj ha).symm, rfl⟩

theorem getElem?_of_drop_eq_cons {answers rest : List Answer} {a : Answer} {k : Nat} (h : answers.drop k = a :: rest) :
    answers[k]? = some a := by
  rw [← List.head?_drop, h]
  rfl

/-- A request that is failed or not answered is not served. -/
theorem not_servedAt {answers : List Answer} {a : Answer} {k : Nat} (ha : answers[k]? = some a) (hne : a ≠ .ok) :
    ¬ ServedAt answers k :=
  fun h => hne (h a ha)

/-- Request j is the first that is not served. -/
structure FirstUnserved (answers : List Answer) (j : Nat) : Prop where
  unserved : ¬ ServedAt answers j
  before : ∀ i, i < j → ServedAt answers i

theorem FirstUnserved.unique {answers : List Answer} {j k : Nat} (hj : FirstUnserved answers j) (hk : FirstUnserved answers k) :
    j = k :=
  Nat.le_antisymm (Nat.not_lt.mp fun h => hk.unserved (hj.before k h)) (Nat.not_lt.mp fun h => hj.unserved (hk.before j h))

theorem firstUnserved_replicate (j : Nat) {a : Answer} (hne : a ≠ .ok) (rest : List Answer) :
    FirstUnserved (List.replicate j .ok ++ a :: rest) j where
  unserved := not_servedAt (getElem?_replicate_append_cons j a rest) hne
  before := fun _ hi => servedAt_of_replicate hi

/-! ### Where a stream stands -/

/-- The stream command that s began stands at u: r reads and w writes have been served, and nothing else has happened (R104-R106). -/
structure StreamProgress (m : Mode) (s : State) (r w : Nat) (u : State) : Prop where
  eng : u.eng = .busy (streamInstr m) .load
  goesOn : StreamGoesOn s u
  keeps : Keeps s u
  seen : u.host.seen = s.host.seen
  rk : u.rk = keySchedule s.host.ops.key
  bytes : u.host.src.bytes = s.host.ops.src.bytes.drop (8 * r)
  srcAnswers : u.host.src.answers = s.host.ops.src.answers.drop r
  snkAnswers : u.host.snkAnswers = s.host.ops.snk.drop w
  snk : u.host.snk = streamOutput s.par m s.host.ops.key s.host.ops.src.bytes w
  inPos : u.fp.inPos + u.host.src.bytes.length = s.host.ops.src.bytes.length
  outPos : u.fp.outPos = 8 * w
  reads : ∀ i, i < r → ServedAt s.host.ops.src.answers i
  writes : ∀ i, i < w → ServedAt s.host.ops.snk i

/-- The stream stands in READ before chunk k: every chunk before it has been read, transformed and written. -/
structure AtChunk (m : Mode) (s : State) (k : Nat) (u : State) : Prop extends StreamProgress m s k k u where
  phase : u.fp.phase = .read
  inRange : k ≤ chunkCount s.host.ops.src.bytes.length
  events : u.host.events = streamEvents s.par m s.host.ops.key s.host.ops.src.bytes k

/-- The stream stands in WRITE with output block k: chunk k has been read and transformed. -/
structure AtBlock (m : Mode) (s : State) (k : Nat) (u : State) : Prop extends StreamProgress m s (k + 1) k u where
  phase : u.fp.phase = .write
  inRange : k < chunkCount s.host.ops.src.bytes.length
  xblk : u.fp.xblk = outBlock s.par m s.host.ops.key s.host.ops.src.bytes k
  events : u.host.events =
    streamEvents s.par m s.host.ops.key s.host.ops.src.bytes k ++ [.read (chunkAt s.host.ops.src.bytes k)]

/-- The stream stands in DONE: every block has been written, and a last read has delivered nothing. -/
structure AtEnd (m : Mode) (s : State) (u : State) : Prop extends
    StreamProgress m s (chunkCount s.host.ops.src.bytes.length + 1) (chunkCount s.host.ops.src.bytes.length) u where
  events : u.host.events =
    streamEvents s.par m s.host.ops.key s.host.ops.src.bytes (chunkCount s.host.ops.src.bytes.length) ++ [.read []]

section Progress

variable {m : Mode} {s u : State} {k r w : Nat}

/-- After the key load nothing has been requested (R101). -/
theorem atChunk_keyLoaded (m : Mode) (s : State) : AtChunk m s 0 (s.keyLoaded (streamInstr m) m) where
  eng := rfl
  goesOn := keyLoaded_goesOn s _ m
  keeps := ⟨rfl, rfl, rfl⟩
  seen := rfl
  rk := rfl
  bytes := rfl
  srcAnswers := rfl
  snkAnswers := rfl
  snk := rfl
  inPos := Nat.zero_add _
  outPos := rfl
  reads := fun i hi => absurd hi (Nat.not_lt_zero i)
  writes := fun i hi => absurd hi (Nat.not_lt_zero i)
  phase := rfl
  inRange := Nat.zero_le _
  events := rfl

/-- The bytes a read of chunk k delivers (R47, R102). -/
theorem StreamProgress.take_bytes (h : StreamProgress m s r w u) : u.host.src.bytes.take 8 = chunkAt s.host.ops.src.bytes r := by
  rw [h.bytes, chunkAt]

/-- A served read uses up one answer and delivers the next chunk (R102, R106). -/
theorem StreamProgress.delivered (h : StreamProgress m s r w u) {rest : List Answer} (hs : Served u.host.src.answers rest) :
    StreamProgress m s (r + 1) w { u.deliver rest with fp := u.fp.took (u.host.src.bytes.take 8) } := by
  rw [h.srcAnswers] at hs
  obtain ⟨hserved, hrest⟩ := servedAt_of_served hs
  refine
    { h with
      goesOn := h.goesOn.trans (streamGoesOn_phase ..)
      keeps := h.keeps.trans ⟨rfl, rfl, rfl⟩
      bytes := ?bytes
      srcAnswers := hrest
      inPos := ?inPos
      reads := Nat.forall_lt_succ_right.mpr ⟨h.reads, hserved⟩ }
  case bytes =>
    show u.host.src.bytes.drop 8 = _
    rw [h.bytes, List.drop_drop, Nat.mul_succ]
  case inPos =>
    show u.fp.inPos + (u.host.src.bytes.take 8).length + (u.host.src.bytes.drop 8).length = _
    rw [Nat.add_assoc, ← List.length_append, List.take_append_drop, h.inPos]

/-- A read that leads to XFORM, and the transform after it, bring the stream to the write of that chunk's block (R103, R104). -/
theorem AtChunk.xformStep (h : AtChunk m s k u) (hx : u.readStep.fp.phase = .xform) :
    AtBlock m s k (u.readStep.xformStep m) := by
  obtain ⟨rest, hs, hne, e⟩ := readStep_xform h.phase hx
  have hmore : 8 * k < s.host.ops.src.bytes.length := by
    rw [h.bytes, ne_eq, List.drop_eq_nil_iff] at hne
    omega
  have p := h.toStreamProgress.delivered hs
  rw [e]
  refine
    { p with
      goesOn := p.goesOn.trans (streamGoesOn_phase ..)
      keeps := p.keeps.trans ⟨rfl, rfl, rfl⟩
      phase := rfl
      inRange := ?inRange
      xblk := ?xblk
      events := ?events }
  case inRange => rw [chunkCount]; omega
  case xblk =>
    show cipherCore u.par m u.rk (blockOfBytes (u.host.src.bytes.take 8)) = _
    rw [h.keeps.par, h.rk, h.take_bytes, outBlock_eq]
  case events =>
    show u.host.events ++ [.read (u.host.src.bytes.take 8)] = _
    rw [h.events, h.take_bytes]

/-- A read that leads to DONE found the source exhausted: chunk k was the one after the last (R102). -/
theorem AtChunk.readStep_done (h : AtChunk m s k u) (hd : u.readStep.fp.phase = .done) : AtEnd m s u.readStep := by
  obtain ⟨rest, hs, hnil, e⟩ := Machine.readStep_done h.phase hd
  have hlast : chunkCount s.host.ops.src.bytes.length = k := by
    have hin := h.inRange
    rw [h.bytes, List.drop_eq_nil_iff] at hnil
    rw [chunkCount] at hin ⊢
    omega
  have p := h.toStreamProgress.delivered hs
  have htake : u.host.src.bytes.take 8 = [] := by rw [hnil, List.take_nil]
  rw [htake, ← e] at p
  refine { toStreamProgress := hlast.symm ▸ p, events := ?_ }
  rw [e, hlast, ← h.events, ← htake]
  rfl

/-- An accepted write brings the stream to the next chunk (R104). -/
theorem AtBlock.writeStep_read (h : AtBlock m s k u) (hr : u.writeStep.fp.phase = .read) :
    AtChunk m s (k + 1) u.writeStep := by
  obtain ⟨rest, hs, e⟩ := Machine.writeStep_read h.phase hr
  rw [h.snkAnswers] at hs
  obtain ⟨hserved, hrest⟩ := servedAt_of_served hs
  rw [e]
  refine
    { h.toStreamProgress with
      goesOn := h.goesOn.trans (streamGoesOn_phase ..)
      keeps := h.keeps.trans ⟨rfl, rfl, rfl⟩
      snkAnswers := hrest
      snk := ?snk
      outPos := congrArg (· + 8) h.outPos
      writes := Nat.forall_lt_succ_right.mpr ⟨h.writes, hserved⟩
      phase := rfl
      inRange := h.inRange
      events := ?events }
  case snk =>
    show u.host.snk ++ u.fp.xblk.toList = _
    rw [h.snk, h.xblk, streamOutput_succ]
  case events =>
    show u.host.events ++ [.wrote u.fp.xblk] = _
    rw [h.events, h.xblk, streamEvents_succ, List.append_assoc]
    rfl

end Progress

/-! ### How a stream can go -/

/-- The ways a stream command that s began can go, once its key is loaded, with the state t it then leaves (R105, R107, R108, R141). -/
inductive StreamRun (m : Mode) (s t : State) : Prop
  | completed (u : State) (h : AtEnd m s u) (ht : t = u.doneStep)
  | readFailed (k : Nat) (u : State) (info : IoInfo) (rest : List Answer) (h : AtChunk m s k u)
      (ha : s.host.ops.src.answers[k]? = some (.fail info))
      (ht : t = (u.failRead info rest).discardKeys.raise (.ioFailure .source info))
  | readWaits (k : Nat) (h : AtChunk m s k t) (ha : s.host.ops.src.answers[k]? = some .silent)
  | writeFailed (k : Nat) (u : State) (info : IoInfo) (rest : List Answer) (h : AtBlock m s k u)
      (ha : s.host.ops.snk[k]? = some (.fail info))
      (ht : t = (u.failWrite u.fp.xblk info rest).discardKeys.raise (.ioFailure .sink info))
  | writeWaits (k : Nat) (h : AtBlock m s k t) (ha : s.host.ops.snk[k]? = some .silent)

section Runs

variable {m : Mode} {s t u : State} {k : Nat}

/-- A read that leads neither to XFORM nor to DONE was failed or not answered. -/
theorem AtChunk.readStep_stops (h : AtChunk m s k u) (hx : u.readStep.fp.phase ≠ .xform) (hd : u.readStep.fp.phase ≠ .done) :
    StreamRun m s u.readStep := by
  rcases readStep_cases u with ⟨rest, -, e⟩ | ⟨info, rest, ha, e⟩ | ⟨rest, ha, e⟩
  · rcases hb : u.host.src.bytes with _ | ⟨b, bs⟩ <;> rw [e, hb] at hx hd
    · exact absurd rfl hd
    · exact absurd rfl hx
  · exact .readFailed k u info rest h (getElem?_of_drop_eq_cons (h.srcAnswers.symm.trans ha)) e
  · exact .readWaits k (e.symm ▸ h) (getElem?_of_drop_eq_cons (h.srcAnswers.symm.trans ha))

/-- A write that does not lead to READ was failed or not answered. -/
theorem AtBlock.writeStep_stops (h : AtBlock m s k u) (hr : u.writeStep.fp.phase ≠ .read) : StreamRun m s u.writeStep := by
  rcases writeStep_cases u with ⟨rest, -, e⟩ | ⟨info, rest, ha, e⟩ | ⟨rest, ha, e⟩
  · rw [e] at hr; exact absurd rfl hr
  · exact .writeFailed k u info rest h (getElem?_of_drop_eq_cons (h.snkAnswers.symm.trans ha)) e
  · exact .writeWaits k (e.symm ▸ h) (getElem?_of_drop_eq_cons (h.snkAnswers.symm.trans ha))

/-- The loop from the key load is one of these runs: it does not end for want of reads (R102). -/
theorem streamLoop_run (m : Mode) (s : State) :
    StreamRun m s (State.streamLoop m (streamReads s.host.ops.src.bytes.length) (s.keyLoaded (streamInstr m) m)) := by
  refine streamLoop_induction_enough (m := m) (P := fun u => ∃ k, AtChunk m s k u) (Q := StreamRun m s)
    ?atRead ?readStops ?exhausted ?writeStops ?again _ _ ⟨0, atChunk_keyLoaded m s⟩ (Nat.le_refl _)
  case atRead => exact fun u ⟨k, h⟩ => h.phase
  case readStops => exact fun u ⟨k, h⟩ hx hd => h.readStep_stops hx hd
  case exhausted => exact fun u ⟨k, h⟩ hd => .completed u.readStep (h.readStep_done hd) rfl
  case writeStops => exact fun u ⟨k, h⟩ hx hw => (h.xformStep hx).writeStep_stops hw
  case again => exact fun u ⟨k, h⟩ hx hw => ⟨k + 1, (h.xformStep hx).writeStep_read hw⟩

/-- With a key of 32 bytes and a source within the bound, a stream command answers with one of these runs. -/
theorem exec_stream_runs (hk : s.host.ops.key.length = 32) (hf : StreamFits s.par s.host.ops) :
    ∃ t, exec (streamInstr m) s = .next t ∧ StreamRun m s t := by
  rw [exec_streamInstr, streamCommand_of_fits hk hf]
  exact ⟨_, rfl, streamLoop_run m s⟩

/-- A stream command that answers has refused its key or is one of these runs. -/
theorem exec_stream_next (h : exec (streamInstr m) s = .next t) :
    t = (s.openStream (streamInstr m) m).discardKeys.raise (.invalidKeyLength s.host.ops.key.length) ∨ StreamRun m s t := by
  rw [exec_streamInstr] at h
  rcases streamCommand_next h with ht | ⟨-, -, rfl⟩
  · exact .inl ht
  · exact .inr (streamLoop_run m s)

/-- When the host serves every request, the stream completes (R105). -/
theorem exec_stream_served (hk : s.host.ops.key.length = 32) (hf : StreamFits s.par s.host.ops) (hs : HostServes s.host.ops) :
    ∃ u, AtEnd m s u ∧ exec (streamInstr m) s = .next u.doneStep := by
  obtain ⟨hsrc, hsnk⟩ := hs
  obtain ⟨t, ht, run⟩ := exec_stream_runs (m := m) hk hf
  cases run with
  | completed u h hu => exact ⟨u, h, hu ▸ ht⟩
  | readFailed k u info rest _ ha _ => exact absurd (servedAt_of_all hsrc k) (not_servedAt ha nofun)
  | readWaits k _ ha => exact absurd (servedAt_of_all hsrc k) (not_servedAt ha nofun)
  | writeFailed k u info rest _ ha _ => exact absurd (servedAt_of_all hsnk k) (not_servedAt ha nofun)
  | writeWaits k _ ha => exact absurd (servedAt_of_all hsnk k) (not_servedAt ha nofun)

end Runs

/-! ### Streams whose every request is served -/

/-- DONE ends the command with success, and writes STATUS, RK_VALID, ENG and the response (R109). -/
theorem doneStep_eq (s : State) : s.doneStep = s.discardKeys.answerHost 0 .none none := by
  rw [State.doneStep, State.respond, statusOk_eq]

/-- Settles O31: the stream completes, and DONE adds its response to where the stream stood. -/
theorem streamWritesEveryBlock : Obligations.StreamWritesEveryBlock := by
  intro m s hk hf hs
  obtain ⟨u, h, e⟩ := exec_stream_served (m := m) hk hf hs
  have hbytes : u.host.src.bytes = [] := by
    rw [h.bytes, List.drop_eq_nil_iff, chunkCount]
    omega
  have hinPos : u.fp.inPos = s.host.ops.src.bytes.length := by simpa [hbytes] using h.inPos
  obtain ⟨hres, -⟩ := h.goesOn.res
  obtain ⟨hblkout, -⟩ := h.goesOn.blkout
  obtain ⟨-, hresps⟩ := h.goesOn.response
  have hlen : u.host.snk.length = 8 * chunkCount s.host.ops.src.bytes.length := by rw [h.snk, length_streamOutput]
  refine ⟨_, e, ?_⟩
  rw [doneStep_eq]
  exact ⟨h.snk, hlen.trans (Nat.mul_comm _ _), rfl, rfl, rfl, h.rk, congrArg (· ++ _) hresps, hinPos, h.outPos.trans hlen.symm,
    hbytes, hres, hblkout⟩

/-- Settles O33: the requests are those of where the completed stream stood; a chunk before the last begins within the source. -/
theorem streamRequestsInOrder : Obligations.StreamRequestsInOrder := by
  intro m s hk hf hs
  obtain ⟨u, h, e⟩ := exec_stream_served (m := m) hk hf hs
  have hevents : u.doneStep.host.events = u.host.events := rfl
  refine ⟨_, e, hevents.trans h.events, ?_, fun j hj => ?_⟩
  · rw [hevents, h.events, List.filter_append, List.length_append, length_filter_streamEvents]
    rfl
  · rw [chunkCount] at hj
    rw [length_chunkAt]
    omega

/-- The sink of a stream whose every request is served (R105). -/
theorem exec_stream_output {m : Mode} {s : State} (hk : s.host.ops.key.length = 32) (hf : StreamFits s.par s.host.ops)
    (hs : HostServes s.host.ops) :
    ∃ t, exec (streamInstr m) s = .next t ∧ t.status = 0 ∧
      t.host.snk = streamOutput s.par m s.host.ops.key s.host.ops.src.bytes (chunkCount s.host.ops.src.bytes.length) := by
  obtain ⟨t, e, hsnk, -, hstatus, -⟩ := streamWritesEveryBlock m s hk hf hs
  exact ⟨t, e, hstatus, hsnk⟩

/-- Settles O38: block k of an output is the transform of chunk k of its source alone. -/
theorem blocksAreIndependent : Obligations.BlocksAreIndependent := by
  intro m s other j hk hf hs hlen hsame
  obtain ⟨t, et, -, ht⟩ := exec_stream_output (m := m) hk hf hs
  obtain ⟨u, eu, -, hu⟩ := exec_stream_output (m := m)
    (s := s.withOps { s.host.ops with src := { bytes := other, answers := s.host.ops.src.answers } })
    hk (fun n hn => hlen.le.trans (hf n hn)) hs
  replace hu : u.host.snk =
      streamOutput s.par m s.host.ops.key other (chunkCount s.host.ops.src.bytes.length) := hlen ▸ hu
  refine ⟨t, u, et, eu, by rw [ht, hu, length_streamOutput, length_streamOutput], fun k hkj => ?_,
    fun k l hfull hfull' heq => ?_⟩
  · have hchunk : chunkAt other k = chunkAt s.host.ops.src.bytes k :=
      chunkAt_congr fun i _ _ => hsame i (by omega)
    rw [ht, hu]
    by_cases hin : k < chunkCount s.host.ops.src.bytes.length
    · rw [chunkAt_streamOutput _ _ _ _ hin, chunkAt_streamOutput _ _ _ _ hin, outBlock, outBlock, hchunk]
    · rw [chunkAt_eq_nil (by rw [length_streamOutput]; omega), chunkAt_eq_nil (by rw [length_streamOutput]; omega)]
  · rw [ht, chunkAt_streamOutput _ _ _ _ (by rw [chunkCount]; omega), chunkAt_streamOutput _ _ _ _ (by rw [chunkCount]; omega),
      outBlock, outBlock, heq]

theorem streamOutput_one (p : Params) (m : Mode) (key : List Byte) {src : List Byte} (h : src.length ≤ 8) :
    streamOutput p m key src 1 = (cipherCore p m (keySchedule key) (blockOfBytes (padded src))).toList := by
  rw [streamOutput_succ, outBlock, chunkAt, Nat.mul_zero, List.drop_zero, List.take_of_length_le h]
  rfl

/-- Settles O39: the three lengths give one padded block, no block, and one block with nothing to pad. -/
theorem paddingIsDeterministic : Obligations.PaddingIsDeterministic := by
  intro s hk hf hs
  obtain ⟨t, e, -, ht⟩ := exec_stream_output (m := .encrypt) hk hf hs
  refine ⟨t, e, fun hn => ?_, fun hn => ?_, fun hn => ?_⟩ <;> rw [ht, hn]
  · rw [show chunkCount 5 = 1 from rfl, streamOutput_one _ _ _ (by omega), padded, hn]
    rfl
  · rfl
  · rw [show chunkCount 8 = 1 from rfl, streamOutput_one _ _ _ (by omega), blockOfBytes_padded]
    rfl

/-- The other mode's transform of an output's block is the padded chunk it was made of (R112). -/
theorem outBlock_streamOutput {m m' : Mode} (h : m' ≠ m) (p : Params) (key src : List Byte) {j k : Nat} (hj : j < k) :
    (outBlock p m' key (streamOutput p m key src k) j).toList = padded (chunkAt src j) := by
  have hlen : (padded (chunkAt src j)).length = 8 := length_padded (by rw [length_chunkAt]; omega)
  rw [outBlock_eq, chunkAt_streamOutput _ _ _ _ hj, blockOfBytes_toList, outBlock, cipherCore_cipherCore h,
    toList_blockOfBytes _ hlen]

/-- The other mode's stream over a whole output gives back the source and its padding (R112). -/
theorem streamOutput_streamOutput {m m' : Mode} (h : m' ≠ m) (p : Params) (key src : List Byte) :
    streamOutput p m' key (streamOutput p m key src (chunkCount src.length)) (chunkCount src.length) =
      src ++ List.replicate ((8 - src.length % 8) % 8) 0 := by
  rw [← flatMap_padded_chunkAt, streamOutput]
  exact List.flatMap_congr fun j hj => outBlock_streamOutput h p key src (List.mem_range.mp hj)

/-- Settles O40: the second stream has as many blocks as the first, and its transform undoes the first one's. -/
theorem paddingSurvivesTheRoundTrip : Obligations.PaddingSurvivesTheRoundTrip := by
  intro s t c hk hf hs ht hkey hsrc hf' hs'
  obtain ⟨t', e, -, hsnk⟩ := exec_stream_output (m := .encrypt) hk hf hs
  obtain rfl := next_inj (e.symm.trans ht)
  have hpar : t'.par = s.par := (exec_keeps ht).par
  obtain ⟨u, eu, hstatus, hu⟩ := exec_stream_output (m := .decrypt) (s := t'.present c)
    (hkey ▸ hk) (show StreamFits t'.par c.ops from hpar.symm ▸ hf') hs'
  refine ⟨u, eu, hstatus, ?_⟩
  have hmode : Mode.decrypt ≠ .encrypt := nofun
  have hcount : ∀ n, chunkCount (8 * n) = n := fun n => by rw [chunkCount]; omega
  replace hu : u.host.snk = streamOutput t'.par .decrypt c.ops.key c.ops.src.bytes (chunkCount c.ops.src.bytes.length) := hu
  rw [hu, hpar, hkey, hsrc, hsnk, length_streamOutput, hcount, streamOutput_streamOutput hmode]

/-! ### Streams that fail, and how a stream ends -/

/-- A source that leaves request j unserved first, and a sink that serves every write before it, stop the stream at read j. -/
theorem StreamRun.stops_at_read {m : Mode} {s t : State} {j : Nat} (run : StreamRun m s t)
    (hsrc : FirstUnserved s.host.ops.src.answers j) (hsnk : ∀ i, i < j → ServedAt s.host.ops.snk i)
    (hj : j ≤ chunkCount s.host.ops.src.bytes.length) :
    (∃ u info rest, AtChunk m s j u ∧ s.host.ops.src.answers[j]? = some (.fail info) ∧
      t = (u.failRead info rest).discardKeys.raise (.ioFailure .source info)) ∨
    (AtChunk m s j t ∧ s.host.ops.src.answers[j]? = some .silent) := by
  have noWriteStop : ∀ k a u, AtBlock m s k u → s.host.ops.snk[k]? = some a → a = .ok := by
    intro k a u h ha
    have hkj : k < j := Nat.not_le.mp fun hle => hsrc.unserved (h.reads j (Nat.lt_succ_of_le hle))
    exact hsnk k hkj a ha
  cases run with
  | completed u h _ => exact absurd (h.reads j (Nat.lt_succ_of_le hj)) hsrc.unserved
  | readFailed k u info rest h ha ht =>
    obtain rfl := hsrc.unique ⟨not_servedAt ha nofun, h.reads⟩
    exact .inl ⟨u, info, rest, h, ha, ht⟩
  | readWaits k h ha =>
    obtain rfl := hsrc.unique ⟨not_servedAt ha nofun, h.reads⟩
    exact .inr ⟨h, ha⟩
  | writeFailed k u info rest h ha _ => cases noWriteStop k _ u h ha
  | writeWaits k h ha => cases noWriteStop k _ t h ha

/-- A sink that leaves request j unserved first, and a source that serves every read up to it, stop the stream at write j. -/
theorem StreamRun.stops_at_write {m : Mode} {s t : State} {j : Nat} (run : StreamRun m s t)
    (hsnk : FirstUnserved s.host.ops.snk j) (hsrc : ∀ i, i ≤ j → ServedAt s.host.ops.src.answers i)
    (hj : j < chunkCount s.host.ops.src.bytes.length) :
    (∃ u info rest, AtBlock m s j u ∧ s.host.ops.snk[j]? = some (.fail info) ∧
      t = (u.failWrite u.fp.xblk info rest).discardKeys.raise (.ioFailure .sink info)) ∨
    (AtBlock m s j t ∧ s.host.ops.snk[j]? = some .silent) := by
  have noReadStop : ∀ k a u, AtChunk m s k u → s.host.ops.src.answers[k]? = some a → a = .ok := by
    intro k a u h ha
    have hkj : k ≤ j := Nat.not_lt.mp fun hlt => hsnk.unserved (h.writes j hlt)
    exact hsrc k hkj a ha
  cases run with
  | completed u h _ => exact absurd (h.writes j hj) hsnk.unserved
  | readFailed k u info rest h ha _ => cases noReadStop k _ u h ha
  | readWaits k h ha => cases noReadStop k _ t h ha
  | writeFailed k u info rest h ha ht =>
    obtain rfl := hsnk.unique ⟨not_servedAt ha nofun, h.writes⟩
    exact .inl ⟨u, info, rest, h, ha, ht⟩
  | writeWaits k h ha =>
    obtain rfl := hsnk.unique ⟨not_servedAt ha nofun, h.writes⟩
    exact .inr ⟨h, ha⟩

/-- Settles O35: the stream stops at read j, with everything before it as where it stood. -/
theorem readFailureEndsTheStream : Obligations.ReadFailureEndsTheStream := by
  intro m s j info more hk hf hsnk hj hsrc
  have hanswer : s.host.ops.src.answers[j]? = some (.fail info) := by rw [hsrc, getElem?_replicate_append_cons]
  obtain ⟨t, e, run⟩ := exec_stream_runs (m := m) hk hf
  rcases run.stops_at_read (hsrc ▸ firstUnserved_replicate j (a := .fail info) nofun more)
    (fun i hi => servedAt_of_take hsnk hi) hj with ⟨u, info', rest, h, ha, rfl⟩ | ⟨-, ha⟩
  · cases ha.symm.trans hanswer
    rw [State.raise, status_ioFailure_source, ioInfo_ioFailure] at e
    obtain ⟨-, hresps⟩ := h.goesOn.response
    exact ⟨_, e, rfl, rfl, rfl, congrArg (· ++ _) hresps, h.snk, congrArg (· ++ _) h.events⟩
  · cases ha.symm.trans hanswer

/-- Settles O36: the stream stops at write j; how much of block j its sink keeps is the free value of log 11. -/
theorem writeFailureEndsTheStream : Obligations.WriteFailureEndsTheStream := by
  intro m s j info more hk hf hsrc hj hsnk
  have hanswer : s.host.ops.snk[j]? = some (.fail info) := by rw [hsnk, getElem?_replicate_append_cons]
  obtain ⟨t, e, run⟩ := exec_stream_runs (m := m) hk hf
  rcases run.stops_at_write (hsnk ▸ firstUnserved_replicate j (a := .fail info) nofun more)
    (fun i hi => servedAt_of_take hsrc (Nat.lt_succ_of_le hi)) hj with ⟨u, info', rest, h, ha, rfl⟩ | ⟨-, ha⟩
  · cases ha.symm.trans hanswer
    rw [State.raise, status_ioFailure_sink, ioInfo_ioFailure] at e
    obtain ⟨-, hresps⟩ := h.goesOn.response
    refine ⟨_, e, rfl, rfl, rfl, congrArg (· ++ _) hresps, ⟨_, (Config.failedWritePrefix u.freeCtr).is_le, ?_⟩, ?_⟩
    · show u.host.snk ++ u.fp.xblk.toList.take _ = _
      rw [h.snk, h.xblk]
    · show u.host.events ++ [.writeFailed u.fp.xblk info] = _
      rw [h.events, h.xblk, List.append_assoc]
      rfl
  · cases ha.symm.trans hanswer

/-- No error ends a command with code 0 (R25, R117). -/
theorem statusCode_raise_ne_zero (s : State) (e : Err) : statusCode (s.raise e).status ≠ 0 := by
  obtain ⟨hcode, -⟩ := err_status_fields e
  rw [State.raise_eq, State.answerHost_status, hcode]
  cases e <;> simp [Err.code]

/-- Settles O32: of the ways a stream command can go, only a completed stream ends with code 0. -/
theorem successfulStreamsOutput : Obligations.SuccessfulStreamsOutput := by
  intro m s t ht hidle hcode
  have output : t.host.snk =
      streamOutput s.par m s.host.ops.key s.host.ops.src.bytes (chunkCount s.host.ops.src.bytes.length) := by
    rcases exec_stream_next ht with rfl | run
    · exact absurd hcode (statusCode_raise_ne_zero _ _)
    · cases run with
      | completed u h ht => rw [ht]; exact h.snk
      | readFailed k u info rest h ha ht => rw [ht] at hcode; exact absurd hcode (statusCode_raise_ne_zero _ _)
      | readWaits k h ha => cases h.eng.symm.trans hidle
      | writeFailed k u info rest h ha ht => rw [ht] at hcode; exact absurd hcode (statusCode_raise_ne_zero _ _)
      | writeWaits k h ha => cases h.eng.symm.trans hidle
  refine ⟨output, by rw [output, length_streamOutput, Nat.mul_comm], fun hnil => ?_⟩
  rw [output, hnil]
  rfl

/-- A stream that has ended, by success or by a failure, has discarded its schedule (R109). -/
theorem StreamRun.rkValid {m : Mode} {s t : State} (run : StreamRun m s t) (hidle : t.eng = .idle) : t.rkValid = false := by
  cases run with
  | completed u h ht => rw [ht]; rfl
  | readFailed k u info rest h ha ht => rw [ht]; rfl
  | readWaits k h ha => cases h.eng.symm.trans hidle
  | writeFailed k u info rest h ha ht => rw [ht]; rfl
  | writeWaits k h ha => cases h.eng.symm.trans hidle

/-- Settles O37: every ending discards the schedule, and a block command then finds none. -/
theorem streamDiscardsItsSchedule : Obligations.StreamDiscardsItsSchedule := by
  intro m s t ht hidle
  have hv : t.rkValid = false := by
    rcases exec_stream_next ht with rfl | run
    · rfl
    · exact run.rkValid hidle
  obtain ⟨-, -, -, -, hrk⟩ := registersHaveTheirWriters (streamInstr m) s t ht
  refine ⟨hv, hrk, fun m' c hblk => ⟨_, exec_blockInstr m' _, ?_⟩⟩
  rw [blockCommand_of_noKeys (s := t.present c) hblk hv]
  exact ⟨status_noRoundKeys, rfl⟩

/-- However a stream goes, the port values seen stay. -/
theorem StreamRun.seen {m : Mode} {s t : State} (run : StreamRun m s t) : t.host.seen = s.host.seen := by
  cases run with
  | completed u h ht => rw [ht]; exact h.seen
  | readFailed k u info rest h ha ht => rw [ht]; exact h.seen
  | readWaits k h ha => exact h.seen
  | writeFailed k u info rest h ha ht => rw [ht]; exact h.seen
  | writeWaits k h ha => exact h.seen

/-- A stream command's effect keeps the responses already sent. -/
theorem StreamEffect.keeps_resps {s t : State} (h : StreamEffect s t) : s.host.resps <+: t.host.resps := by
  cases h with
  | goesOn h =>
    obtain ⟨-, hresps⟩ := h.response
    rw [hresps]
  | ends u st r io h ht =>
    obtain ⟨-, hresps⟩ := h.response
    rw [ht, ← hresps]
    exact List.prefix_append _ _

/-- Settles O46: the frames of the commands in general and of the stream commands. -/
theorem streamCommandFrame : Obligations.StreamCommandFrame := by
  intro m s t ht
  obtain ⟨hpar, hscript, hops⟩ := exec_keeps ht
  have notGf : streamInstr m ≠ .gf := by cases m <;> exact nofun
  have notEncb : streamInstr m ≠ .encb := by cases m <;> exact nofun
  have notDecb : streamInstr m ≠ .decb := by cases m <;> exact nofun
  obtain ⟨hres, hblk, -⟩ := registersHaveTheirWriters (streamInstr m) s t ht
  obtain ⟨hresEq, hresHeld⟩ := hres notGf
  obtain ⟨hblkEq, hblkHeld⟩ := hblk notEncb notDecb
  have hseen : t.host.seen = s.host.seen := by
    rcases exec_stream_next ht with rfl | run
    · rfl
    · exact run.seen
  rw [exec_streamInstr] at ht
  exact ⟨hpar, hresEq, hresHeld, hblkEq, hblkHeld, hscript, hops, hseen, (streamCommand_effect ht).keeps_resps⟩

/-! ### The phases -/

/-- READ leads to XFORM with 1 to 8 bytes more, to DONE with none, ends the command, or waits (R102, R104, R107). -/
theorem readStep_phase (s : State) :
    s.readStep.eng = .idle ∨ s.readStep = s ∨ s.readStep.fp.phase = .done ∧ s.readStep.fp.inPos = s.fp.inPos ∨
      s.readStep.fp.phase = .xform ∧ s.fp.inPos < s.readStep.fp.inPos ∧ s.readStep.fp.inPos ≤ s.fp.inPos + 8 := by
  rcases readStep_cases s with ⟨rest, -, e⟩ | ⟨info, rest, -, e⟩ | ⟨rest, -, e⟩
  · rcases hb : s.host.src.bytes with _ | ⟨b, bs⟩ <;> rw [e, hb]
    · exact .inr (.inr (.inl ⟨rfl, rfl⟩))
    · have grows : s.fp.inPos < s.fp.inPos + ((b :: bs).take 8).length := Nat.lt_add_of_pos_right (by simp)
      have bounded : s.fp.inPos + ((b :: bs).take 8).length ≤ s.fp.inPos + 8 :=
        Nat.add_le_add_left (List.length_take_le ..) _
      exact .inr (.inr (.inr ⟨rfl, grows, bounded⟩))
  · rw [e]; exact .inl rfl
  · exact .inr (.inl e)

/-- XFORM stays or leads to WRITE, and the command goes on (R93, R104). -/
theorem xformMicro_phase {i : Instr} {pos : BlockPos} {s : State} (m : Mode) (he : s.eng = .busy i pos)
    (hp : s.fp.phase = .xform) :
    (xformMicro i m pos s).eng ≠ .idle ∧
      ((xformMicro i m pos s).fp.phase = .xform ∨ (xformMicro i m pos s).fp.phase = .write) := by
  cases pos with
  | check => exact ⟨nofun, .inl hp⟩
  | load => exact ⟨nofun, .inl hp⟩
  | run =>
    by_cases hr : s.be.rnd < 32
    · rw [xformMicro_round hr]
      exact ⟨by simp [he], .inl hp⟩
    · rw [xformMicro_emit hr]
      exact ⟨nofun, .inr rfl⟩

/-- WRITE leads to READ with OUT_POS 8 more, ends the command, or waits (R104, R108). -/
theorem writeStep_phase (s : State) :
    s.writeStep.eng = .idle ∨ s.writeStep = s ∨
      s.writeStep.fp.phase = .read ∧ s.writeStep.fp.outPos = s.fp.outPos + 8 := by
  rcases writeStep_cases s with ⟨rest, -, e⟩ | ⟨info, rest, -, e⟩ | ⟨rest, -, e⟩
  · rw [e]; exact .inr (.inr ⟨rfl, rfl⟩)
  · rw [e]; exact .inl rfl
  · exact .inr (.inl e)

/-- Settles O43: the micro-step of each phase goes where its row says. -/
theorem streamPhasesFollowTheTable : Obligations.StreamPhasesFollowTheTable := by
  intro s t m pos he h
  rw [microStep_stream he] at h
  refine ⟨fun hp => ?_, fun hp => ?_, fun hp => ?_, fun hp => ?_, fun hp => ?_⟩ <;> simp only [streamMicro, hp] at h
  · rcases keyLoadStep_next h with rfl | ⟨-, -, rfl⟩
    · exact .inl rfl
    · exact .inr rfl
  · rw [← next_inj h]; exact readStep_phase s
  · rw [← next_inj h]; exact xformMicro_phase m he hp
  · rw [← next_inj h]; exact writeStep_phase s
  · rw [← next_inj h, doneStep_eq]; exact ⟨rfl, rfl, rfl⟩

/-! ### Streams that do not begin -/

/-- Settles O34: the key load refuses the key after it has opened the stream and before any request. -/
theorem streamRejectsKeyBeforeAnyRequest : Obligations.StreamRejectsKeyBeforeAnyRequest := by
  intro m s hk
  refine ⟨_, (exec_streamInstr m s).trans (streamCommand_of_badKey hk), ?_⟩
  rw [State.raise, status_invalidKeyLength, ioInfo_invalidKeyLength]
  exact ⟨rfl, rfl, rfl, rfl, rfl, rfl, rfl, rfl, rfl, rfl⟩

/-- Settles O41: the key load refuses a source over the bound once the key has passed. -/
theorem longStreamIsRefused : Obligations.LongStreamIsRefused := by
  intro m s n hn hlong hk
  rw [exec_streamInstr]
  rcases streamCommand_cases (streamInstr m) m s with ⟨hne, -⟩ | ⟨-, -, e⟩ | ⟨-, hl, -⟩
  · exact absurd hk hne
  · exact e
  · exact absurd ((streamTooLong_openStream s _ m).mp hl n hn) (Nat.not_le.mpr hlong)

/-! ### The host's sink between commands -/

/-- Settles O56: ENG decides whether the cut is taken or held; a micro-step keeps the script. -/
theorem hostCutsTheSinkBetweenCommands : Obligations.HostCutsTheSinkBetweenCommands := by
  intro s n rest hw hs
  rw [step_eq_hostStep hw]
  refine ⟨fun he => ?_, fun i pos he => ?_⟩
  · have hcut : hostStep s = .next ((s.withScript rest).cutSink n) := by simp only [hostStep, hs, he]
    rw [hcut]
    rfl
  · have hheld : hostStep s = microStep s := by simp only [hostStep, hs, he]
    rw [hheld]
    exact ⟨rfl, fun t ht => (microStep_keeps ht).script⟩

end Sys2Proof.Machine
end

section
/-!
PROOFS. The statements about the errors of a command (60_exceptions): the status words a command can end with, the order of its
errors, and which steps answer a next state.
-/

namespace Sys2Proof.Machine

/-! ### The status words a command can end with -/

/-- w is a status word the command can end with: 0 after success, 1 InvalidKeyLength, 2 InvalidBlockLength, 5 NoRoundKeys, and for
IOFailure 3 on the source's side and 11 on the sink's (R115, R25). -/
def IsEndStatus (w : Word) : Instr → Prop
  | .keyx => w = 0 ∨ w = 1
  | .gf => w = 0
  | .encb | .decb => w = 0 ∨ w = 2 ∨ w = 5
  | .pse | .psd => w = 0 ∨ w = 1 ∨ w = 3 ∨ w = 11

theorem isEndStatus_blockInstr {w : Word} {m : Mode} : IsEndStatus w (blockInstr m) ↔ w = 0 ∨ w = 2 ∨ w = 5 := by
  cases m <;> rfl

theorem isEndStatus_streamInstr {w : Word} {m : Mode} :
    IsEndStatus w (streamInstr m) ↔ w = 0 ∨ w = 1 ∨ w = 3 ∨ w = 11 := by
  cases m <;> rfl

/-- A stream that has ended has completed, or failed at a read or a write. -/
theorem StreamRun.status {m : Mode} {s t : State} (run : StreamRun m s t) (hidle : t.eng = .idle) :
    t.status = 0 ∨ t.status = 3 ∨ t.status = 11 := by
  cases run with
  | completed u h ht => rw [ht, doneStep_eq]; exact .inl rfl
  | readFailed k u info rest h ha ht => rw [ht]; exact .inr (.inl (status_ioFailure_source info))
  | readWaits k h ha => cases h.eng.symm.trans hidle
  | writeFailed k u info rest h ha ht => rw [ht]; exact .inr (.inr (status_ioFailure_sink info))
  | writeWaits k h ha => cases h.eng.symm.trans hidle

/-- A command that ends leaves one of its own status words. -/
theorem exec_isEndStatus {i : Instr} {s t : State} (h : exec i s = .next t) (hidle : t.eng = .idle) : IsEndStatus t.status i := by
  induction i using instr_families with
  | keyx =>
    rcases execKeyx_cases s with ⟨-, e⟩ | ⟨-, e⟩ <;> rw [← next_inj (e.symm.trans h)]
    · exact .inl statusOk_eq
    · exact .inr (status_invalidKeyLength _)
  | gf => rw [← next_inj h]; exact statusOk_eq
  | block m =>
    rw [exec_blockInstr] at h
    rw [← next_inj h, isEndStatus_blockInstr]
    rcases blockCommand_cases m s with ⟨-, e⟩ | ⟨-, -, e⟩ | ⟨-, -, e⟩ <;> rw [e]
    · exact .inr (.inl (status_invalidBlockLength _))
    · exact .inr (.inr status_noRoundKeys)
    · exact .inl statusOk_eq
  | stream m =>
    rw [isEndStatus_streamInstr]
    rcases exec_stream_next h with rfl | run
    · exact .inr (.inl (status_invalidKeyLength _))
    · exact (run.status hidle).imp_right .inr

/-- Settles O48: the words a command can end with are legal and have the codes listed. -/
theorem statusCodesOfEachCommand : Obligations.StatusCodesOfEachCommand := by
  intro i s t h hidle
  have hw := exec_isEndStatus h hidle
  generalize t.status = w at hw ⊢
  unfold StatusLegal
  cases i with
  | keyx => rcases hw with rfl | rfl <;> decide
  | gf => cases hw; decide
  | encb | decb => rcases hw with rfl | rfl | rfl <;> decide
  | pse | psd => rcases hw with rfl | rfl | rfl | rfl <;> decide

/-! ### The order of errors -/

theorem statusCode_raise (s : State) (e : Err) : statusCode (s.raise e).status = e.code := by
  obtain ⟨hcode, -⟩ := err_status_fields e
  exact hcode

/-- Settles O49: an illegal word, a wrong length and a missing schedule each lead to their own `raise`, in the order of the checks. -/
theorem errorsInTheirOrder : Obligations.ErrorsInTheirOrder := by
  obtain ⟨-, illegal⟩ := illegalWordsWriteOnlyStatus
  refine ⟨fun s c rest hw he hs hd => ?_, fun m s hne => ?_, fun m s hb hv => ?_, fun s hne => ?_, fun m s hne => ?_⟩
  · exact ⟨_, illegal s c rest hw he (.inl hs) hd, (by decide : statusCode 4 = 4)⟩
  · rw [exec_blockInstr, blockCommand_of_badBlk hne]
    exact ⟨_, rfl, statusCode_raise s _⟩
  · rw [exec_blockInstr, blockCommand_of_noKeys hb hv]
    exact ⟨_, rfl, statusCode_raise s _⟩
  · exact ⟨_, execKeyx_of_badKey hne, statusCode_raise s _⟩
  · rw [exec_streamInstr, streamCommand_of_badKey hne]
    exact ⟨_, rfl, statusCode_raise _ _⟩

/-! ### Steps that answer -/

theorem hostStep_noMove {s : State} (hs : s.host.script = []) : hostStep s = microStep s := by
  simp only [hostStep, hs]

/-- Settles O9: with no move to come the step is a micro-step, and an idle core takes none. -/
theorem idleCoreWaits : Obligations.IdleCoreWaits := by
  intro s hw he hs
  rw [step_eq_hostStep hw, hostStep_noMove hs, microStep_idle he]

/-- KEYX answers whatever key is at the port (R78). -/
theorem execKeyx_answers (s : State) : ∃ t, execKeyx s = .next t := by
  rcases execKeyx_cases s with ⟨-, e⟩ | ⟨-, e⟩
  · exact ⟨_, e⟩
  · exact ⟨_, e⟩

section Unbounded

variable {s : State} (hmax : s.par.maxStream = none)

include hmax

theorem streamTooLong_eq_false (i : Instr) (m : Mode) : (s.openStream i m).streamTooLong = false :=
  (streamTooLong_openStream s i m).mpr fun n hn => by cases hmax.symm.trans hn

/-- With no bound on a stream the key load answers: a source is never too long (R113). -/
theorem keyLoadStep_answers (i : Instr) (m : Mode) : ∃ t, s.keyLoadStep i m = .next t := by
  rcases keyLoadStep_cases s i m with ⟨-, e⟩ | ⟨-, hl, -⟩ | ⟨-, -, e⟩
  · exact ⟨_, e⟩
  · cases hl.symm.trans (streamTooLong_eq_false hmax i m)
  · exact ⟨_, e⟩

theorem streamCommand_answers (i : Instr) (m : Mode) : ∃ t, streamCommand i m s = .next t := by
  rcases streamCommand_cases i m s with ⟨-, e⟩ | ⟨-, hl, -⟩ | ⟨-, -, e⟩
  · exact ⟨_, e⟩
  · cases hl.symm.trans (streamTooLong_eq_false hmax i m)
  · exact ⟨_, e⟩

/-- With no bound on a stream every command answers (R124). -/
theorem exec_answers (i : Instr) : ∃ t, exec i s = .next t := by
  induction i using instr_families with
  | keyx => exact execKeyx_answers s
  | gf => exact ⟨_, rfl⟩
  | block m => exact ⟨_, exec_blockInstr m s⟩
  | stream m => rw [exec_streamInstr]; exact streamCommand_answers hmax _ m

theorem streamMicro_answers (i : Instr) (m : Mode) (pos : BlockPos) : ∃ t, streamMicro i m pos s = .next t := by
  cases hp : s.fp.phase with
  | keyload => simp only [streamMicro, hp]; exact keyLoadStep_answers hmax i m
  | read | xform | write | done => simp only [streamMicro, hp]; exact ⟨_, rfl⟩

/-- With no bound on a stream every micro-step answers, whatever runs (R124). -/
theorem microStep_answers : ∃ t, microStep s = .next t := by
  cases he : s.eng with
  | idle => exact ⟨_, microStep_idle he⟩
  | busy i pos =>
    induction i using instr_families with
    | keyx => simpa only [microStep, he] using execKeyx_answers s
    | gf => simp only [microStep, he]; exact ⟨_, rfl⟩
    | block m => exact ⟨_, microStep_block he⟩
    | stream m => rw [microStep_stream he]; exact streamMicro_answers hmax _ m pos

theorem issueCommand_answers (c : Command) : ∃ t, issueCommand c s = .next t := by
  cases hd : decode c.cmd with
  | some i => rw [issueCommand_of_decode hd]; exact exec_answers (s := s.present c) hmax i
  | none => exact ⟨_, issueCommand_illegal hd s⟩

end Unbounded

theorem startCommand_answers (c : Command) (s : State) : ∃ t, startCommand c s = .next t := by
  cases hd : decode c.cmd with
  | some i => simp only [startCommand, hd]; exact ⟨_, rfl⟩
  | none => exact ⟨_, startCommand_illegal hd s⟩

/-- A port read answers unless it reads RES or BLKOUT without a value (R37). -/
theorem readPort_answers {p : Port} {s : State} (hres : p = .res → s.resHeld = true) (hblk : p = .blkout → s.blkHeld = true) :
    ∃ t, readPort p s = .next t := by
  have hval : ∃ v, s.portValue p = some v := by
    cases p with
    | status => exact ⟨_, rfl⟩
    | res => exact ⟨_, if_pos (hres rfl)⟩
    | blkout => exact ⟨_, if_pos (hblk rfl)⟩
    | eng => exact ⟨_, rfl⟩
  obtain ⟨v, hv⟩ := hval
  exact ⟨_, readPort_of_value hv⟩

/-- Settles O55: each kind of step answers, a port read by the premises on the registers it shows. -/
theorem nothingElseStopsTheMachine : Obligations.NothingElseStopsTheMachine := by
  intro s hw hmax hres hblk
  rw [Steps, step_eq_hostStep hw]
  rcases hostStep_cases s with e | ⟨rest, -, e⟩ | ⟨rest, -, e⟩ | ⟨p, rest, hs, e⟩ | ⟨c, rest, -, -, e⟩ | ⟨c, rest, -, -, e⟩ |
    ⟨n, rest, -, -, e⟩
  · rw [e]; exact microStep_answers hmax
  · rw [e]; exact microStep_answers (s := s.withScript rest) hmax
  · exact ⟨_, e⟩
  · rw [e]; exact readPort_answers (fun hp => hres rest (hp ▸ hs)) (fun hp => hblk rest (hp ▸ hs))
  · rw [e]; exact issueCommand_answers (s := s.withScript rest) hmax c
  · rw [e]; exact startCommand_answers c _
  · exact ⟨_, e⟩

end Sys2Proof.Machine
end

section
/-!
PROOFS. The statements about reset and hazards (70_reset_and_hazards): reset in the middle of a command, a command held at a busy
core, a host that never answers, and the one response of each command.
-/

namespace Sys2Proof.Machine

/-! ### Reset -/

theorem hostStep_reset {s : State} {rest : List HostMove} (hs : s.host.script = .reset :: rest) :
    hostStep s = .next (s.withScript rest).resetCore := by
  simp only [hostStep, hs]

/-- Settles O13: the step is `resetCore`, which looks at nothing that runs. -/
theorem resetIsTakenWhateverRuns : Obligations.ResetIsTakenWhateverRuns := by
  intro s rest hw hs
  rw [step_eq_hostStep hw, hostStep_reset hs]
  exact ⟨_, rfl, rfl, rfl, rfl, rfl, rfl, rfl, rfl⟩

/-- A block command without a schedule answers NoRoundKeys, whatever state it is issued in (R94, R95). -/
theorem exec_block_noKeys {s : State} (hv : s.rkValid = false) (m : Mode) (c : Command) (hblk : c.ops.blk.length = 8) :
    ∃ u, exec (blockInstr m) (s.present c) = .next u ∧ u.status = 5 := by
  rw [exec_blockInstr, blockCommand_of_noKeys (s := s.present c) hblk hv]
  exact ⟨_, rfl, status_noRoundKeys⟩

/-- Settles O14: reset keeps the host's side, and the invariant says how the streams stood. -/
theorem resetInMidStreamKeepsAcceptedBlocks : Obligations.ResetInMidStreamKeepsAcceptedBlocks := by
  intro s i pos rest hsound hw he hi hp hs
  have underWay : StreamUnderWay s := hsound.stream i pos he hi hp
  have whole : 8 ∣ s.host.snk.length := underWay.accepted ▸ hsound.outPos
  rw [step_eq_hostStep hw, hostStep_reset hs]
  exact ⟨_, rfl, rfl, whole, underWay.accepted, underWay.delivered, rfl, exec_block_noKeys rfl⟩

/-! ### Commands at a busy core -/

/-- Settles O8: on a busy core neither move is taken, and a micro-step keeps the script and the record at the port. -/
theorem busyCoreHoldsCommands : Obligations.BusyCoreHoldsCommands := by
  intro s t c rest i pos hw he hs
  have held : hostStep s = microStep s := by
    rcases hs with hs | hs <;> simp only [hostStep, hs, he]
  rw [step_eq_hostStep hw, held]
  refine ⟨rfl, fun ht => ?_⟩
  have kept := microStep_keeps ht
  exact ⟨kept.script, kept.ops⟩

/-! ### A host that never answers -/

/-- A run one micro-step longer takes its last micro-step from where the shorter run stood. -/
theorem microRun_succ_of_next {s t : State} {n : Nat} (h : microRun n s = .next t) : microRun (n + 1) s = microStep t := by
  induction n generalizing s with
  | zero =>
    obtain rfl := next_inj h
    cases hm : microStep s <;> simp only [microRun, hm]
  | succ n ih =>
    cases hm : microStep s with
    | next u =>
      rw [microRun_next hm] at h ⊢
      exact ih h
    | fault r => simp only [microRun, hm, reduceCtorEq] at h
    | refused r => simp only [microRun, hm, reduceCtorEq] at h

/-- A whole command leaves a state that no micro-step changes: micro-steps beyond R141's number end where that number ends. -/
theorem exec_settles {i : Instr} {s t : State} (h : exec i s = .next t) : microStep t = .next t := by
  have enough := microStepsRefineTheCommands i s _ (Nat.le_refl _)
  have oneMore := microStepsRefineTheCommands i s _ (Nat.le_succ _)
  rw [microRun_succ_of_next (enough.trans h)] at oneMore
  exact oneMore.trans h

/-- Settles O42: the stream stands where its first unanswered request left it, and the whole command has settled there. -/
theorem unansweredRequestHangsTheCommand : Obligations.UnansweredRequestHangsTheCommand := by
  refine ⟨fun m s t ht _ => exec_settles ht, ?source, ?sink⟩
  case source =>
    intro m s j more hk hf hsnk hj hsrc
    have hanswer : s.host.ops.src.answers[j]? = some .silent := by rw [hsrc, getElem?_replicate_append_cons]
    obtain ⟨t, e, run⟩ := exec_stream_runs (m := m) hk hf
    rcases run.stops_at_read (hsrc ▸ firstUnserved_replicate j (a := .silent) nofun more)
      (fun i hi => servedAt_of_take hsnk hi) hj with ⟨_, _, _, -, ha, -⟩ | ⟨h, -⟩
    · cases ha.symm.trans hanswer
    · obtain ⟨hstatus, hresps⟩ := h.goesOn.response
      exact ⟨t, e, h.eng, h.phase, hresps, hstatus, h.snk, h.events⟩
  case sink =>
    intro m s j more hk hf hsrc hj hsnk
    have hanswer : s.host.ops.snk[j]? = some .silent := by rw [hsnk, getElem?_replicate_append_cons]
    obtain ⟨t, e, run⟩ := exec_stream_runs (m := m) hk hf
    rcases run.stops_at_write (hsnk ▸ firstUnserved_replicate j (a := .silent) nofun more)
      (fun i hi => servedAt_of_take hsrc (Nat.lt_succ_of_le hi)) hj with ⟨_, _, _, -, ha, -⟩ | ⟨h, -⟩
    · cases ha.symm.trans hanswer
    · obtain ⟨hstatus, hresps⟩ := h.goesOn.response
      exact ⟨t, e, h.eng, h.phase, hresps, hstatus, h.snk, h.events⟩

/-! ### One response for each command -/

/-- A command begun at s has ended in t with one response, of the form R57 gives it. -/
def AnsweredOnce (s t : State) : Prop :=
  ∃ r, t.eng = .idle ∧ t.host.resps = s.host.resps ++ [r] ∧ r.status = t.status ∧
    (r.ioInfo.isSome = true ↔ statusCode t.status = 3) ∧ (r.result ≠ .none → statusCode t.status = 0)

section Answering

variable {s t u : State}

/-- A success is code 0 without IOINFO (R25, R57). -/
theorem answeredOnce_respond (hu : u.host.resps = s.host.resps) (r : Result) : AnsweredOnce s (u.respond r) := by
  have code : statusCode statusOk = 0 := by decide
  have noFailure : statusCode statusOk ≠ 3 := by decide
  exact ⟨_, rfl, congrArg (· ++ _) hu, rfl, iff_of_false Bool.false_ne_true noFailure, fun _ => code⟩

/-- IOINFO is what the code 3 errors carry, and no others (R57, R118). -/
theorem ioInfo_isSome_iff (e : Err) : e.ioInfo.isSome = true ↔ e.code = 3 := by
  cases e <;> simp [Err.code]

/-- An error carries no result, and IOINFO exactly for IOFailure (R117). -/
theorem answeredOnce_raise (hu : u.host.resps = s.host.resps) (e : Err) : AnsweredOnce s (u.raise e) := by
  refine ⟨_, rfl, congrArg (· ++ _) hu, rfl, ?_, fun hne => absurd rfl hne⟩
  rw [statusCode_raise]
  exact ioInfo_isSome_iff e

theorem execKeyx_answersOnce (s : State) : ∃ t, execKeyx s = .next t ∧ AnsweredOnce s t := by
  rcases execKeyx_cases s with ⟨-, e⟩ | ⟨-, e⟩
  · exact ⟨_, e, answeredOnce_respond rfl _⟩
  · exact ⟨_, e, answeredOnce_raise rfl _⟩

theorem execGf_answersOnce (s : State) : ∃ t, execGf s = .next t ∧ AnsweredOnce s t :=
  ⟨_, rfl, answeredOnce_respond rfl _⟩

theorem blockCommand_answersOnce (m : Mode) (s : State) : AnsweredOnce s (blockCommand m s) := by
  rcases blockCommand_cases m s with ⟨-, e⟩ | ⟨-, -, e⟩ | ⟨-, -, e⟩ <;> rw [e]
  · exact answeredOnce_raise rfl _
  · exact answeredOnce_raise rfl _
  · exact answeredOnce_respond rfl _

/-- While a stream goes on it has sent no response (R55). -/
theorem StreamProgress.resps {m : Mode} {r w : Nat} (h : StreamProgress m s r w u) : u.host.resps = s.host.resps :=
  h.goesOn.response.2

/-- With a host that answers each request, a stream does not wait: it completes or fails (R142). -/
theorem StreamRun.answersOnce {m : Mode} (run : StreamRun m s t) (hhost : HostAnswers s.host.ops) : AnsweredOnce s t := by
  obtain ⟨hsrc, hsnk⟩ := hhost
  cases run with
  | completed u h ht => rw [ht]; exact answeredOnce_respond h.resps _
  | readFailed k u info rest h ha ht => rw [ht]; exact answeredOnce_raise h.resps _
  | readWaits k h ha => exact absurd rfl (hsrc _ (List.mem_of_getElem? ha))
  | writeFailed k u info rest h ha ht => rw [ht]; exact answeredOnce_raise h.resps _
  | writeWaits k h ha => exact absurd rfl (hsnk _ (List.mem_of_getElem? ha))

theorem exec_stream_answersOnce (m : Mode) (hhost : HostAnswers s.host.ops) (hf : StreamFits s.par s.host.ops) :
    ∃ t, exec (streamInstr m) s = .next t ∧ AnsweredOnce s t := by
  by_cases hk : s.host.ops.key.length = 32
  · obtain ⟨t, e, run⟩ := exec_stream_runs (m := m) hk hf
    exact ⟨t, e, run.answersOnce hhost⟩
  · rw [exec_streamInstr, streamCommand_of_badKey hk]
    exact ⟨_, rfl, answeredOnce_raise rfl _⟩

end Answering

/-- Settles O50: each family of commands answers once; only the streams need the host. -/
theorem everyCommandAnswersOnce : Obligations.EveryCommandAnswersOnce := by
  intro i s hhost hf
  have answered : ∃ t, exec i s = .next t ∧ AnsweredOnce s t := by
    induction i using instr_families with
    | keyx => exact execKeyx_answersOnce s
    | gf => exact execGf_answersOnce s
    | block m => exact ⟨_, exec_blockInstr m s, blockCommand_answersOnce m s⟩
    | stream m => exact exec_stream_answersOnce m hhost hf
  obtain ⟨t, e, r, once⟩ := answered
  exact ⟨t, r, e, once⟩

end Sys2Proof.Machine
end
